-- ==== Sys2Proof/Word.lean ====
section
/-! DEFINITION. The two bit-vector types of the machine (spec/00_scope.md R5, R6): every register and operand is a
16-bit word, every memory cell a byte, all of them unsigned. -/

namespace Sys2Proof

/-- A 16-bit register, operand or address (`XLEN` = 16, R4). -/
abbrev Word := BitVec 16

/-- One byte of memory or of an instruction's encoding. -/
abbrev Byte := BitVec 8

end Sys2Proof
end

