-- ==== Sys2Proof/Config.lean ====
section
/-! DEFINITION. The parameters of spec/00_scope.md R4 as named constants, the closed enumeration of opcodes
(spec/30_encoding.md R53), and the configuration `Config`, whose field is the opcode map. `XLEN` is the width of
`Word`; `FATAL` is true, so every fault ends the run (`State.raise`). The default of `OPC` is `Sys2Proof.Opcode.byte`
(Decode.lean); `FLAGBIT` is `Machine.flagBit` (Machine/Flags.lean) and `SEL` is `Machine.selectorOf`
(Machine/Operands.lean). -/

namespace Sys2Proof

namespace Config

/-- `CAP`: bytes of memory; the valid addresses are 0 to `cap - 1` (R4, R30). -/
abbrev cap : Nat := 65536

/-- `NGPR`: the number of general registers (R4, R11). -/
abbrev ngpr : Nat := 4

/-- `NOPC`: the number of defined opcodes (R4, R53). -/
abbrev nopc : Nat := 21

/-- `SLOT`: bytes moved by one push or pop (R4). -/
abbrev slot : Nat := 2

/-- `IP_INIT`: reset value of the instruction pointer (R4, R22). -/
abbrev ipInit : Word := 0x0000#16

/-- `SP_INIT` = `CAP - 1`: reset value of the stack pointer (R4, R22). -/
abbrev spInit : Word := 0xFFFF#16

/-- Reset value of the flags word: all four flags false, the reserved bits 0 (R22). -/
abbrev flagsInit : Word := 0x0000#16

/-- `DUMP_LEN`: trailing memory bytes in the halt report (R4, R82). -/
abbrev dumpLen : Nat := 32

/-- `GPR_INIT`, which the spec leaves OPEN (R4, R22). DESIGN CHOICE (log entry 1, unsafe): zero. -/
abbrev gprInit : Word := 0x0000#16

/-- `MEM_INIT`, which the spec leaves OPEN (R4, R22): what a byte of memory that nothing has written reads as.
DESIGN CHOICE (log entry 2, unsafe): zero. -/
abbrev memInit : Byte := 0x00#8

end Config

/-- The closed enumeration of opcodes (R53); `NOPC` = 21 (R4). -/
inductive Opcode where
  | nop | hlt
  | movAx | movBx | movCx | movDx | movSp
  | ste | cle | stg | clg | sth | clh | stl | cll
  | push | pop
  | add | sub | mul | div
  deriving DecidableEq, Repr

/-- The opcodes in the order of R53's table. -/
def Opcode.all : List Opcode :=
  [.nop, .hlt, .movAx, .movBx, .movCx, .movDx, .movSp, .ste, .cle, .stg, .clg, .sth, .clh, .stl, .cll,
   .push, .pop, .add, .sub, .mul, .div]

/-- The configuration of a machine, fixed for its life. Its one field is `OPC`, "a configuration field with this table
as its default" (R53): any injective map from opcode to byte (R4, the spec's decision D1). The default is
`Config.default` (Decode.lean). -/
structure Config where
  opc : Opcode → Byte
  injective : ∀ op op' : Opcode, opc op = opc op' → op = op'

/-- The three instruction formats of R50: 1, 3 and 5 bytes. `f5` is reserved: no opcode has it (R55). -/
inductive Format where
  | f1 | f3 | f5
  deriving DecidableEq, Repr

end Sys2Proof
end

