-- ==== Sys2Proof/Syntax.lean ====
section
/-! DEFINITION. The instructions of spec/opcode_table.json, one constructor per row (spec/30_encoding.md R53). An
operand is the whole 16-bit `a1` of the encoding (R52): the literal of a move, the selector of PUSH and POP. A
selector out of range is still an instruction (R56): it decodes, and its meaning raises `InvalidOperand`. -/

namespace Sys2Proof

/-- An instruction, one constructor per row of the opcode table, in the table's order. -/
inductive Instr where
  | nop
  | hlt
  | movAx (imm : Word)
  | movBx (imm : Word)
  | movCx (imm : Word)
  | movDx (imm : Word)
  | movSp (imm : Word)
  | ste
  | cle
  | stg
  | clg
  | sth
  | clh
  | stl
  | cll
  | push (sel : Word)
  | pop (sel : Word)
  | add
  | sub
  | mul
  | div
  deriving DecidableEq, Repr

/-- The opcode of an instruction. -/
def Instr.opcode : Instr → Opcode
  | .nop => .nop
  | .hlt => .hlt
  | .movAx _ => .movAx
  | .movBx _ => .movBx
  | .movCx _ => .movCx
  | .movDx _ => .movDx
  | .movSp _ => .movSp
  | .ste => .ste
  | .cle => .cle
  | .stg => .stg
  | .clg => .clg
  | .sth => .sth
  | .clh => .clh
  | .stl => .stl
  | .cll => .cll
  | .push _ => .push
  | .pop _ => .pop
  | .add => .add
  | .sub => .sub
  | .mul => .mul
  | .div => .div

/-- The operand slot `a1` of an instruction, absent for the one-byte instructions (R57). -/
def Instr.operand : Instr → Option Word
  | .nop => none
  | .hlt => none
  | .movAx imm => some imm
  | .movBx imm => some imm
  | .movCx imm => some imm
  | .movDx imm => some imm
  | .movSp imm => some imm
  | .ste => none
  | .cle => none
  | .stg => none
  | .clg => none
  | .sth => none
  | .clh => none
  | .stl => none
  | .cll => none
  | .push sel => some sel
  | .pop sel => some sel
  | .add => none
  | .sub => none
  | .mul => none
  | .div => none

end Sys2Proof
end

