-- ==== Sys2Proof/WellFormed.lean ====
section
/-! DEFINITION. The instruction record `(opcode, a1, a2)` of spec/30_encoding.md R57, the form in which the host
supplies a program (R63), and the check that its slots are those its opcode has. The type `Instr` carries exactly
the operands its opcode has, so every instruction's own record passes the check
(`Laws.RecordForm`). -/

namespace Sys2Proof

/-- "opcode tag + two optional 16-bit operand slots" (R57). -/
structure Record where
  opcode : Opcode
  a1 : Option Word
  a2 : Option Word
  deriving DecidableEq, Repr

/-- Whether an opcode has the one operand `a1` (the operand column of R51). -/
def Opcode.hasOperand : Opcode → Bool
  | .nop => false
  | .hlt => false
  | .movAx => true
  | .movBx => true
  | .movCx => true
  | .movDx => true
  | .movSp => true
  | .ste => false
  | .cle => false
  | .stg => false
  | .clg => false
  | .sth => false
  | .clh => false
  | .stl => false
  | .cll => false
  | .push => true
  | .pop => true
  | .add => false
  | .sub => false
  | .mul => false
  | .div => false

/-- A record in the form of R57: `a1` present exactly when the opcode has an operand, and `a2` absent, since no
opcode of the current set has two. -/
def Record.wf (r : Record) : Bool :=
  r.a1.isSome == r.opcode.hasOperand && r.a2.isNone

/-- The record of an instruction (R57). -/
def Instr.record (i : Instr) : Record :=
  { opcode := i.opcode, a1 := i.operand, a2 := none }

/-- An instruction is well formed when its record is. -/
def Instr.wf (i : Instr) : Bool :=
  i.record.wf

end Sys2Proof
end

