-- ==== Sys2Proof/Decode.lean ====
section
/-! DEFINITION. Encoding of instructions (spec/30_encoding.md): the default of the opcode map `OPC` (R53), the size
table (R51), the decoder (R52, R54), total on any bytes, and the encoder (R58). Both take the configuration `c`, whose
`c.opc` is the opcode map, and read the same two tables, `c.opc` and `Opcode.format`. -/

namespace Sys2Proof

/-! ### Byte order (R35): little-endian, for operands and for memory alike -/

/-- `v[7:0]` (R5). -/
def lowByte (v : Word) : Byte := v.extractLsb' 0 8

/-- `v[15:8]` (R5). -/
def highByte (v : Word) : Byte := v.extractLsb' 8 8

/-- `hi ++ lo`, that is `hi*256 + lo` (R36, R52). -/
def wordOfBytes (lo hi : Byte) : Word := hi ++ lo

/-! ### The two tables -/

/-- The default of `OPC`, the table of R53 (the numbers are the spec's own decision D1, log entry 6). -/
def Opcode.byte : Opcode → Byte
  | .nop => 0x01#8
  | .hlt => 0x02#8
  | .movAx => 0x08#8
  | .movBx => 0x09#8
  | .movCx => 0x0A#8
  | .movDx => 0x0B#8
  | .movSp => 0x0C#8
  | .ste => 0x10#8
  | .cle => 0x11#8
  | .stg => 0x12#8
  | .clg => 0x13#8
  | .sth => 0x14#8
  | .clh => 0x15#8
  | .stl => 0x16#8
  | .cll => 0x17#8
  | .push => 0x1A#8
  | .pop => 0x1B#8
  | .add => 0x20#8
  | .sub => 0x21#8
  | .mul => 0x22#8
  | .div => 0x23#8

/-- The default configuration: the opcode map is the table of R53. -/
def Config.default : Config where
  opc := Opcode.byte
  injective := by intro op op'; cases op <;> cases op' <;> decide

/-- The format of each opcode (R51). -/
def Opcode.format : Opcode → Format
  | .nop => .f1
  | .hlt => .f1
  | .movAx => .f3
  | .movBx => .f3
  | .movCx => .f3
  | .movDx => .f3
  | .movSp => .f3
  | .ste => .f1
  | .cle => .f1
  | .stg => .f1
  | .clg => .f1
  | .sth => .f1
  | .clh => .f1
  | .stl => .f1
  | .cll => .f1
  | .push => .f3
  | .pop => .f3
  | .add => .f1
  | .sub => .f1
  | .mul => .f1
  | .div => .f1

/-- The encoded size of a format, opcode byte included (R50). -/
def Format.size : Format → Nat
  | .f1 => 1
  | .f3 => 3
  | .f5 => 5

/-- The opcode whose byte `b` is, if there is one: the row of the opcode map that matches (R53, R64). -/
def opcodeOf (c : Config) (b : Byte) : Option Opcode :=
  Opcode.all.find? (fun op => c.opc op == b)

/-- `SIZE(b)`, a function of the opcode byte alone; `none` for a byte with no table entry (R51, R54). -/
def sizeOf? (c : Config) (b : Byte) : Option Nat :=
  (opcodeOf c b).map (fun op => op.format.size)

/-- The encoded size of an instruction. -/
def Instr.size (i : Instr) : Nat := i.opcode.format.size

/-! ### Decoding -/

/-- Why a byte sequence is no instruction: `illegalOpcode`, the first byte has no table entry (R54); `truncated`,
the bytes end before the instruction does. Rejecting is safe: R54 names the fault of the first, and the fetch turns
the second into the guard's fault (R71). -/
inductive DecodeError where
  | illegalOpcode (b : Byte)
  | truncated
  deriving DecidableEq, Repr

/-- The operand slots at the head of `bs`, for a format, and the bytes after them (R52): exactly `SIZE - 1` bytes are
read. The case `f5` is the reserved format's (R55), which no opcode selects. -/
def takeOperands : Format → List Byte → Option (Option Word × Option Word × List Byte)
  | .f1, bs => some (none, none, bs)
  | .f3, lo :: hi :: bs => some (some (wordOfBytes lo hi), none, bs)
  | .f3, _ => none
  | .f5, l1 :: h1 :: l2 :: h2 :: bs => some (some (wordOfBytes l1 h1), some (wordOfBytes l2 h2), bs)
  | .f5, _ => none

/-- The record at the head of a byte sequence, and the bytes after it. -/
def decodeRecord (c : Config) : List Byte → Except DecodeError (Record × List Byte)
  | [] => .error .truncated
  | b :: rest =>
    match opcodeOf c b with
    | none => .error (.illegalOpcode b)
    | some op =>
      match takeOperands op.format rest with
      | none => .error .truncated
      | some (a1, a2, rest') => .ok ({ opcode := op, a1 := a1, a2 := a2 }, rest')

/-- The instruction an opcode and the operand `a1` stand for; the one-byte opcodes read no operand (R57). -/
def Opcode.instr : Opcode → Word → Instr
  | .nop, _ => .nop
  | .hlt, _ => .hlt
  | .movAx, a1 => .movAx a1
  | .movBx, a1 => .movBx a1
  | .movCx, a1 => .movCx a1
  | .movDx, a1 => .movDx a1
  | .movSp, a1 => .movSp a1
  | .ste, _ => .ste
  | .cle, _ => .cle
  | .stg, _ => .stg
  | .clg, _ => .clg
  | .sth, _ => .sth
  | .clh, _ => .clh
  | .stl, _ => .stl
  | .cll, _ => .cll
  | .push, a1 => .push a1
  | .pop, a1 => .pop a1
  | .add, _ => .add
  | .sub, _ => .sub
  | .mul, _ => .mul
  | .div, _ => .div

/-- The instruction of a record. A record the decoder makes holds every slot its format has, so the default of an
absent slot is never read by an opcode that has an operand. -/
def Record.instr (r : Record) : Instr :=
  r.opcode.instr (r.a1.getD 0#16)

/-- The instruction at the head of a byte sequence, and the bytes after it. -/
def decode (c : Config) (bs : List Byte) : Except DecodeError (Instr × List Byte) :=
  match decodeRecord c bs with
  | .error e => .error e
  | .ok (r, rest) => .ok (r.instr, rest)

/-! ### Encoding -/

/-- The operand bytes of a format, each operand low byte first (R50, R58). -/
def operandBytes : Format → Word → Word → List Byte
  | .f1, _, _ => []
  | .f3, a1, _ => [lowByte a1, highByte a1]
  | .f5, a1, a2 => [lowByte a1, highByte a1, lowByte a2, highByte a2]

/-- Whether a record holds the slots its format's bytes are made of. Slots beyond the size do not matter (R58). -/
def Record.encodable (r : Record) : Bool :=
  match r.opcode.format with
  | .f1 => true
  | .f3 => r.a1.isSome
  | .f5 => r.a1.isSome && r.a2.isSome

/-- `encode(opcode, a1, a2)` on the host's records (R58): slots beyond the size are dropped, the selector of a PUSH
or POP is not checked. A record that lacks a slot its size needs has no bytes (log entry 8). -/
def Record.encode (c : Config) (r : Record) : Option (List Byte) :=
  if r.encodable then
    some (c.opc r.opcode :: operandBytes r.opcode.format (r.a1.getD 0#16) (r.a2.getD 0#16))
  else
    none

/-- The bytes of an instruction, in address order (R58). -/
def encode (c : Config) (i : Instr) : List Byte :=
  c.opc i.opcode :: operandBytes i.opcode.format (i.operand.getD 0#16) 0#16

/-! ### Words numbered as the opcode table numbers them (R50: `W = byte0 + byte1*2^8 + byte2*2^16`) -/

/-- Bytes of the longest instruction of the current opcode set (R51). -/
def longestInstr : Nat := 3

/-- The first `n` bytes of a number, least significant first. -/
def bytesOfNat : Nat → Nat → List Byte
  | 0, _ => []
  | n + 1, w => BitVec.ofNat 8 w :: bytesOfNat n (w / 256)

/-- The bytes of an instruction word of `nbits` bits, with the bits above `nbits` zero up to the longest
instruction. -/
def tableWordBytes (nbits w : Nat) : List Byte :=
  bytesOfNat longestInstr (w % 2 ^ nbits)

/-- The instruction the decoder reads, under the default opcode map, from the instruction word `w` of `nbits` bits. -/
def decodeTableWord (nbits w : Nat) : Option Instr :=
  match decode .default (tableWordBytes nbits w) with
  | .ok (i, _) => some i
  | .error _ => none

end Sys2Proof
end

