-- ==== Sys2Proof/Machine/State.lean ====
section
/-! DEFINITION. The state of one machine (spec/10_state.md R10, a closed list) as plain data, the reasons a step can
stop, and the state after reset (R22). One field is the model's own: `sink`, the reports the engine has written
(log entry 3). -/

namespace Sys2Proof.Machine

/-- The four general registers (R11): primary accumulator, base, count, data. -/
inductive Reg where
  | ax | bx | cx | dx
  deriving DecidableEq, Repr

/-- The four condition flags (R14): equal, greater, higher, lower. -/
inductive Flag where
  | equal | greater | higher | lower
  deriving DecidableEq, Repr

/-- The six faults the spec describes (spec/60_exceptions.md R120), in the order of its codes 1 to 6. Raising one is
`State.raise` (Machine/Ops.lean). -/
inductive FaultKind where
  | outOfBounds
  | illegalInstruction
  | invalidOperand
  | divisionByZero
  | stackOverflow
  | stackUnderflow
  deriving DecidableEq, Repr

/-- The run state (R17). `halted` and `faulted k` are terminal. -/
inductive RunState where
  | running
  | halted
  | faulted (k : FaultKind)
  deriving DecidableEq, Repr

/-- The halt report as a record (spec/41_nop_halt.md R82; its text is the host's): the four general registers, the
stack pointer, and the last 32 bytes of memory in ascending address order. -/
structure HaltReport where
  ax : Word
  bx : Word
  cx : Word
  dx : Word
  sp : Word
  dump : List Byte
  deriving DecidableEq, Repr

/-- What the engine writes to the text sink: the halt report (R82), or the error report, which is the kind alone
(spec/60_exceptions.md R135). -/
inductive Report where
  | halt (r : HaltReport)
  | error (k : FaultKind)
  deriving DecidableEq, Repr

/-- Memory: the bytes that differ from what an unlisted address reads as, by rising address. Its operations and its
canonical form `Memory.wf` stand in Machine/Ops.lean. -/
abbrev Memory := List Host.Cell

/-- The state of one machine (R10). `ax` to `dx` are `x[0]` to `x[3]`. -/
structure State where
  ax : Word
  bx : Word
  cx : Word
  dx : Word
  sp : Word
  ip : Word
  flags : Word
  run : RunState
  cursor : Nat
  mem : Memory
  sink : List Report
  deriving DecidableEq, Repr

/-- Why no step can be taken. -/
inductive Fault where
  /-- Raised by `step` (Machine/Step.lean) and by nothing else, in a machine whose run has ended in `Faulted(k)`:
  "the engine takes no step and changes no state, for ever" (R18). Safe: no behaviour is added, and the run's
  outcome is the fault. -/
  | faulted (k : FaultKind)
  deriving DecidableEq, Repr

/-- Why an instruction or a host operation has no meaning in the model. -/
inductive Refusal where
  /-- Raised by an arm of `exec` whose instruction has no meaning yet; no arm does. Safe. -/
  | notModelled (mnemonic : String)
  /-- Raised by `State.load` (Machine/Loader.lean) in a machine whose run has ended: the host may not load then
  (spec/70_reset_and_hazards.md R150). No instruction raises it. Safe. -/
  | loadAfterEnd
  /-- Raised by the host operations of `Session` (Machine/Session.lean) while the engine runs: "the host can do nothing
  to it" then (spec/70_reset_and_hazards.md R150), and the spec gives the call no effect (93 U17). No instruction
  raises it. Safe. -/
  | hostDuringRun
  /-- Raised by `State.load` (Machine/Loader.lean) for a record that lacks an operand slot its size needs: the spec
  gives it no bytes (spec/30_encoding.md R57, R58). No instruction raises it. Safe. -/
  | missingOperand
  deriving DecidableEq, Repr

/-- The state after reset (R22, R151) for given `GPR_INIT` and `MEM_INIT`, which the spec leaves open: "A model must
hold for every value". -/
def State.resetWith (ax bx cx dx : Word) (mem : Memory) : State :=
  { ax := ax, bx := bx, cx := cx, dx := dx
    sp := Config.spInit
    ip := Config.ipInit
    flags := Config.flagsInit
    run := .running
    cursor := 0
    mem := mem
    sink := [] }

/-- The machine right after reset, with the values log entries 1 and 2 name for what the spec leaves open. -/
def State.reset : State :=
  State.resetWith Config.gprInit Config.gprInit Config.gprInit Config.gprInit []

end Sys2Proof.Machine
end

