-- ==== Sys2Proof/Machine/Ops.lean ====
section
/-! DEFINITION. The named operations over memory, registers and the run state: memory as a canonical list of cells,
the guarded primitives of spec/20_memory.md R31 to R36, the register file of spec/10_state.md R11, the auto-advance
of spec/40_engine_cycle.md R72, and taking a fault (spec/60_exceptions.md R127). There is no return from a fault to
stand beside it (R131). -/

namespace Sys2Proof.Machine

/-! ### Memory -/

/-- The byte at an address; an unlisted address reads as `MEM_INIT` (log entry 2). -/
def Memory.get : Memory → Nat → Byte
  | [], _ => Config.memInit
  | c :: m, a => if c.1 = a then c.2 else Memory.get m a

/-- Memory with no entry for an address. -/
def Memory.erase (m : Memory) (a : Nat) : Memory :=
  m.filter (fun c => c.1 != a)

/-- Memory with an entry put in the place of its address. -/
def Memory.insert : Memory → Nat → Byte → Memory
  | [], a, v => [(a, v)]
  | c :: m, a, v => if a < c.1 then (a, v) :: c :: m else c :: Memory.insert m a v

/-- Memory with one byte replaced. Writing what an unlisted address reads as removes the entry. -/
def Memory.set (m : Memory) (a : Nat) (v : Byte) : Memory :=
  if v = Config.memInit then Memory.erase m a else Memory.insert (Memory.erase m a) a v

/-- The canonical form: addresses strictly rising and inside the address space (R30), and no entry equal to what an
unlisted address reads as. -/
def Memory.wf (m : Memory) : Bool :=
  decide (m.Pairwise (fun c d => c.1 < d.1)) && m.all (fun c => decide (c.1 < Config.cap) && c.2 != Config.memInit)

/-- `MemRead(addr, 1)` (R31): the address is a natural number, never truncated before the guard (R34). -/
def State.memRead (s : State) (a : Nat) : Except FaultKind Byte :=
  if a < Config.cap then .ok (Memory.get s.mem a) else .error .outOfBounds

/-- `MemWrite(addr, 1, v)` (R32): out of range, memory is unchanged. -/
def State.memWrite (s : State) (a : Nat) (v : Byte) : Except FaultKind State :=
  if a < Config.cap then .ok { s with mem := Memory.set s.mem a v } else .error .outOfBounds

/-- `MemRead(addr, 2)` (R36): low byte first. -/
def State.memRead16 (s : State) (a : Nat) : Except FaultKind Word :=
  match s.memRead a with
  | .error k => .error k
  | .ok lo =>
    match s.memRead (a + 1) with
    | .error k => .error k
    | .ok hi => .ok (wordOfBytes lo hi)

/-- Memory with a word at `a`, low byte at the lower address (R36). -/
def Memory.set16 (m : Memory) (a : Nat) (v : Word) : Memory :=
  Memory.set (Memory.set m a (lowByte v)) (a + 1) (highByte v)

/-- `MemWrite(addr, 2, v)` (R36): both addresses are checked before either byte is written. -/
def State.memWrite16 (s : State) (a : Nat) (v : Word) : Except FaultKind State :=
  if a < Config.cap ∧ a + 1 < Config.cap then .ok { s with mem := Memory.set16 s.mem a v }
  else .error .outOfBounds

/-- `n` guarded byte reads at consecutive addresses, up to the first that faults. -/
def State.readBytes (s : State) : Nat → Nat → Except FaultKind (List Byte)
  | _, 0 => .ok []
  | a, n + 1 =>
    match s.memRead a with
    | .error k => .error k
    | .ok b =>
      match s.readBytes (a + 1) n with
      | .error k => .error k
      | .ok bs => .ok (b :: bs)

/-! ### Registers -/

/-- Read general register `x[r]` (R7, R11). -/
def State.reg (s : State) : Reg → Word
  | .ax => s.ax
  | .bx => s.bx
  | .cx => s.cx
  | .dx => s.dx

/-- Write general register `x[r]` (R7, R11). None is hardwired, none aliases another. -/
def State.setReg (s : State) : Reg → Word → State
  | .ax, v => { s with ax := v }
  | .bx, v => { s with bx := v }
  | .cx, v => { s with cx := v }
  | .dx, v => { s with dx := v }

/-- Write the stack pointer; no check is made on the value (R12, R90). -/
def State.setSp (s : State) (v : Word) : State :=
  { s with sp := v }

/-- The auto-advance `pc <- (ip + n) mod 65536` (R70, R72). -/
def State.advance (s : State) (n : Nat) : State :=
  { s with ip := s.ip + BitVec.ofNat 16 n }

/-! ### Ends of a run -/

/-- The numbers the spec offers for the fault kinds, the ordinals of its list (R120, decision D19); nothing in the
machine holds one. -/
def FaultKind.code : FaultKind → Nat
  | .outOfBounds => 1
  | .illegalInstruction => 2
  | .invalidOperand => 3
  | .divisionByZero => 4
  | .stackOverflow => 5
  | .stackUnderflow => 6

/-- Taking a fault, `raise k` (R127): the error report is emitted (R135) and the run state becomes `Faulted(k)`.
Nothing else changes: nothing is saved, and there is no handler to go to. -/
def State.raise (s : State) (k : FaultKind) : State :=
  { s with run := .faulted k, sink := s.sink ++ [.error k] }

/-- The content of the halt report (R82): the dump is the last `DUMP_LEN` bytes whatever `sp` is. -/
def State.haltReport (s : State) : HaltReport :=
  { ax := s.ax, bx := s.bx, cx := s.cx, dx := s.dx, sp := s.sp
    dump := (List.range Config.dumpLen).map (fun k => Memory.get s.mem (Config.cap - Config.dumpLen + k)) }

/-- `report_halt(); run <- Halted` (R81). -/
def State.halt (s : State) : State :=
  { s with run := .halted, sink := s.sink ++ [.halt s.haltReport] }

end Sys2Proof.Machine
end

