-- ==== Sys2Proof/Machine/Arith.lean ====
section
/-! DEFINITION. The arithmetic family (spec/43_arithmetic.md R93): AX and BX are the sources, AX the destination, the
result is the low 16 bits of the exact one, and no flag is read or written. -/

namespace Sys2Proof.Machine

/-- The low 16 bits of an exact result: `wrap16(v) = v mod 65536` (R6, R93). -/
def wrap16 (v : Nat) : Word := BitVec.ofNat 16 v

/-- The quotient of R97 and R98: unsigned, rounded toward zero. DIV calls it with `b ≠ 0` only. -/
def div16 (a b : Word) : Word := BitVec.ofNat 16 (a.toNat / b.toNat)

/-- `ADD`: `x[0] <- (x[0] + x[1]) mod 65536` (R94). -/
def execAdd (s : State) : Host.Outcome State Fault Refusal :=
  .next (s.setReg .ax (wrap16 (s.ax.toNat + s.bx.toNat)))

/-- `SUB`: `x[0] <- (x[0] - x[1]) mod 65536`, that is `x[0] + 65536 - x[1]` reduced (R95). -/
def execSub (s : State) : Host.Outcome State Fault Refusal :=
  .next (s.setReg .ax (wrap16 (s.ax.toNat + 65536 - s.bx.toNat)))

/-- `MUL`: `x[0] <- (x[0] * x[1]) mod 65536`; the high half is written nowhere (R96). -/
def execMul (s : State) : Host.Outcome State Fault Refusal :=
  .next (s.setReg .ax (wrap16 (s.ax.toNat * s.bx.toNat)))

/-- `DIV`: `if x[1] = 0 then raise DivisionByZero else x[0] <- x[0] / x[1]` (R97). -/
def execDiv (s : State) : Host.Outcome State Fault Refusal :=
  if s.bx = 0#16 then .next (s.raise .divisionByZero)
  else .next (s.setReg .ax (div16 s.ax s.bx))

end Sys2Proof.Machine
end

