-- ==== Sys2Proof/Machine/Flags.lean ====
section
/-! DEFINITION. The flags word and its three primitives (spec/10_state.md R14, R15). Only the eight flag opcodes write
it and no opcode reads it (R16): no other meaning calls these. -/

namespace Sys2Proof.Machine

/-- `FLAGBIT`, the bit position of each flag (R14; the positions are the spec's own decision D2, log entry 6). -/
def flagBit : Flag → Nat
  | .equal => 3
  | .greater => 2
  | .higher => 1
  | .lower => 0

/-- The mask `m(f)` of a flag (R14, R15). -/
def flagMask (f : Flag) : Word := 1#16 <<< flagBit f

/-- The reserved bits 15:4, which no opcode writes (R14). -/
def reservedMask : Word := 0xFFF0#16

/-- `get(f) = (flags & m(f)) != 0` (R15). -/
def State.getFlag (s : State) (f : Flag) : Bool :=
  s.flags &&& flagMask f != 0#16

/-- `set(f)`: `flags <- flags | m(f)` (R15). -/
def State.setFlag (s : State) (f : Flag) : State :=
  { s with flags := s.flags ||| flagMask f }

/-- `clear(f)`: `flags <- flags & ~m(f)`, the complement in 16 bits (R15). -/
def State.clearFlag (s : State) (f : Flag) : State :=
  { s with flags := s.flags &&& ~~~(flagMask f) }

end Sys2Proof.Machine
end

