-- ==== Sys2Proof/Machine/FlagOps.lean ====
section
/-! DEFINITION. The flag set and clear family (spec/44_flags.md R100): each opcode forces one bit of the flags word to
1 or to 0 and touches nothing else. -/

namespace Sys2Proof.Machine

/-- `STE`: `flags <- flags | 0x0008` (R101). -/
def execSte (s : State) : Host.Outcome State Fault Refusal := .next (s.setFlag .equal)

/-- `CLE`: `flags <- flags & 0xFFF7` (R102). -/
def execCle (s : State) : Host.Outcome State Fault Refusal := .next (s.clearFlag .equal)

/-- `STG`: `flags <- flags | 0x0004` (R103). -/
def execStg (s : State) : Host.Outcome State Fault Refusal := .next (s.setFlag .greater)

/-- `CLG`: `flags <- flags & 0xFFFB` (R104). -/
def execClg (s : State) : Host.Outcome State Fault Refusal := .next (s.clearFlag .greater)

/-- `STH`: `flags <- flags | 0x0002` (R105). -/
def execSth (s : State) : Host.Outcome State Fault Refusal := .next (s.setFlag .higher)

/-- `CLH`: `flags <- flags & 0xFFFD` (R106). -/
def execClh (s : State) : Host.Outcome State Fault Refusal := .next (s.clearFlag .higher)

/-- `STL`: `flags <- flags | 0x0001` (R107). -/
def execStl (s : State) : Host.Outcome State Fault Refusal := .next (s.setFlag .lower)

/-- `CLL`: `flags <- flags & 0xFFFE` (R108). -/
def execCll (s : State) : Host.Outcome State Fault Refusal := .next (s.clearFlag .lower)

end Sys2Proof.Machine
end

