-- ==== Sys2Proof/Machine/MoveImm.lean ====
section
/-! DEFINITION. The move-immediate family (spec/42_move_immediate.md R85): the whole 16-bit operand is written to the
destination the opcode names; nothing is extended, truncated or checked. -/

namespace Sys2Proof.Machine

/-- `MOV AX, imm16`: `x[0] <- a1` (R86). -/
def execMovAx (imm : Word) (s : State) : Host.Outcome State Fault Refusal :=
  .next (s.setReg .ax imm)

/-- `MOV BX, imm16`: `x[1] <- a1` (R87). -/
def execMovBx (imm : Word) (s : State) : Host.Outcome State Fault Refusal :=
  .next (s.setReg .bx imm)

/-- `MOV CX, imm16`: `x[2] <- a1` (R88). -/
def execMovCx (imm : Word) (s : State) : Host.Outcome State Fault Refusal :=
  .next (s.setReg .cx imm)

/-- `MOV DX, imm16`: `x[3] <- a1` (R89). -/
def execMovDx (imm : Word) (s : State) : Host.Outcome State Fault Refusal :=
  .next (s.setReg .dx imm)

/-- `MOV SP, imm16`: `sp <- a1`, any value (R90). -/
def execMovSp (imm : Word) (s : State) : Host.Outcome State Fault Refusal :=
  .next (s.setSp imm)

end Sys2Proof.Machine
end

