-- ==== Sys2Proof/Machine/Operands.lean ====
section
/-! DEFINITION. The operand forms: the register selector of PUSH and POP (spec/30_encoding.md R56) and the one
addressing mode of the machine, `sp`-relative with fixed offsets (spec/45_stack.md R110). The literal operand of the
moves is the 16-bit value itself (R52). -/

namespace Sys2Proof.Machine

/-- The general registers in the order of R11. -/
def Reg.all : List Reg := [.ax, .bx, .cx, .dx]

/-- `SEL`, the register-selector numbering (R56; the numbers are the spec's own decision D3, log entry 6). -/
def selectorOf : Reg → Word
  | .ax => 0x0000#16
  | .bx => 0x0001#16
  | .cx => 0x0002#16
  | .dx => 0x0003#16

/-- The register a selector names: all 16 bits are compared, and any other value is out of range (R56). -/
def regOf (sel : Word) : Option Reg :=
  Reg.all.find? (fun r => selectorOf r == sel)

/-- The address of the low byte a push stores: `sp - 1`; the high byte goes to `sp` (R110, R111). -/
def State.pushAddr (s : State) : Nat := s.sp.toNat - 1

/-- The address of the low byte a pop reads: `sp + 1`; the high byte is at `sp + 2` (R110, R112). -/
def State.popAddr (s : State) : Nat := s.sp.toNat + 1

/-- The overflow check `sp < 2` (R113). -/
def State.pushOverflows (s : State) : Bool :=
  decide (s.sp.toNat < Config.slot)

/-- The underflow check `SP_INIT - sp < 2`, that is `sp > 0xFFFD` (R114). -/
def State.popUnderflows (s : State) : Bool :=
  decide (Config.spInit.toNat - s.sp.toNat < Config.slot)

end Sys2Proof.Machine
end

