-- ==== Sys2Proof/Machine/Stack.lean ====
section
/-! DEFINITION. PUSH and POP (spec/45_stack.md), the machine's only stores and loads. The selector is checked before
the stack pointer (R111, R112, R129); a fault is taken as spec/60_exceptions.md R127 says and changes nothing else. -/

namespace Sys2Proof.Machine

/-- `PUSH sel` (R111): checks, `MemWrite(sp - 1, 2, x[sel])`, `sp <- sp - 2`. -/
def execPush (sel : Word) (s : State) : Host.Outcome State Fault Refusal :=
  match regOf sel with
  | none => .next (s.raise .invalidOperand)
  | some r =>
    if s.pushOverflows then .next (s.raise .stackOverflow)
    else
      match s.memWrite16 s.pushAddr (s.reg r) with
      | .error k => .next (s.raise k)
      | .ok t => .next (t.setSp (s.sp - BitVec.ofNat 16 Config.slot))

/-- `POP sel` (R112): checks, `x[sel] <- MemRead(sp + 1, 2)`, `sp <- sp + 2`. -/
def execPop (sel : Word) (s : State) : Host.Outcome State Fault Refusal :=
  match regOf sel with
  | none => .next (s.raise .invalidOperand)
  | some r =>
    if s.popUnderflows then .next (s.raise .stackUnderflow)
    else
      match s.memRead16 s.popAddr with
      | .error k => .next (s.raise k)
      | .ok v => .next ((s.setReg r v).setSp (s.sp + BitVec.ofNat 16 Config.slot))

end Sys2Proof.Machine
end

