-- ==== Sys2Proof/Machine/System.lean ====
section
/-! DEFINITION. NOP and HLT (spec/41_nop_halt.md). As everywhere, the meaning is action 5 of the step: `ip` already
points past the instruction (spec/40_engine_cycle.md R70). -/

namespace Sys2Proof.Machine

/-- `NOP`: "No-op: no state change" (R80). -/
def execNop (s : State) : Host.Outcome State Fault Refusal :=
  .next s

/-- `HLT`: `report_halt(); run <- Halted` (R81, R82). -/
def execHlt (s : State) : Host.Outcome State Fault Refusal :=
  .next s.halt

end Sys2Proof.Machine
end

