-- ==== Sys2Proof/Machine/Dispatch.lean ====
section
/-! DEFINITION. Action 5 of the step: dispatch on the instruction (spec/40_engine_cycle.md R70, R74), one arm per
opcode and no default. -/

namespace Sys2Proof.Machine

def exec (i : Instr) (s : State) : Host.Outcome State Fault Refusal :=
  match i with
  | .nop => Sys2Proof.Machine.execNop s
  | .hlt => Sys2Proof.Machine.execHlt s
  | .movAx imm => Sys2Proof.Machine.execMovAx imm s
  | .movBx imm => Sys2Proof.Machine.execMovBx imm s
  | .movCx imm => Sys2Proof.Machine.execMovCx imm s
  | .movDx imm => Sys2Proof.Machine.execMovDx imm s
  | .movSp imm => Sys2Proof.Machine.execMovSp imm s
  | .ste => Sys2Proof.Machine.execSte s
  | .cle => Sys2Proof.Machine.execCle s
  | .stg => Sys2Proof.Machine.execStg s
  | .clg => Sys2Proof.Machine.execClg s
  | .sth => Sys2Proof.Machine.execSth s
  | .clh => Sys2Proof.Machine.execClh s
  | .stl => Sys2Proof.Machine.execStl s
  | .cll => Sys2Proof.Machine.execCll s
  | .push sel => Sys2Proof.Machine.execPush sel s
  | .pop sel => Sys2Proof.Machine.execPop sel s
  | .add => Sys2Proof.Machine.execAdd s
  | .sub => Sys2Proof.Machine.execSub s
  | .mul => Sys2Proof.Machine.execMul s
  | .div => Sys2Proof.Machine.execDiv s

end Sys2Proof.Machine
end

