-- ==== Sys2Proof/Machine/Fetch.lean ====
section
/-! DEFINITION. Actions 1 to 3 of the step (spec/40_engine_cycle.md R70): the opcode byte, the size lookup, the operand
bytes, in that order, each read through the guard (R71). Nothing is buffered: fetch reads memory as it is
(spec/20_memory.md R44). -/

namespace Sys2Proof.Machine

/-- The fault a rejected byte sequence raises: an opcode byte with no table entry is `IllegalInstruction` (R54), and
missing operand bytes lie beyond the address space (R71). -/
def faultOfDecode : DecodeError → FaultKind
  | .illegalOpcode _ => .illegalInstruction
  | .truncated => .outOfBounds

/-- The bytes of the instruction at `ip`, exactly `SIZE` of them; an illegal opcode byte is returned alone, no
operand byte being read for it (R70, R122). -/
def State.fetchBytes (c : Config) (s : State) : Except FaultKind (List Byte) :=
  match s.memRead s.ip.toNat with
  | .error k => .error k
  | .ok b =>
    match sizeOf? c b with
    | none => .ok [b]
    | some n =>
      match s.readBytes (s.ip.toNat + 1) (n - 1) with
      | .error k => .error k
      | .ok bs => .ok (b :: bs)

/-- The instruction at `ip`, or the fault the fetch raises. -/
def State.fetch (c : Config) (s : State) : Except FaultKind Instr :=
  match s.fetchBytes c with
  | .error k => .error k
  | .ok bs =>
    match decode c bs with
    | .error e => .error (faultOfDecode e)
    | .ok (i, _) => .ok i

/-- Memory with the bytes of a list at consecutive addresses; what would lie beyond the address space is dropped. -/
def placeBytes : Nat → List Byte → Memory → Memory
  | _, [], m => m
  | a, b :: bs, m => placeBytes (a + 1) bs (if a < Config.cap then Memory.set m a b else m)

end Sys2Proof.Machine
end

