-- ==== Sys2Proof/Machine/Step.lean ====
section
/-! DEFINITION. One step of the engine (spec/40_engine_cycle.md R70), and the host's way to place one instruction
where the next step fetches. -/

namespace Sys2Proof.Machine

/-- One step (R70) under a configuration, enabled only when `run = Running` (spec/10_state.md R18). A fetch fault is
taken with `ip` still at the opcode byte; otherwise `ip` advances by the instruction's size before its effect. In
`Halted` the engine changes nothing, for ever (log entry 5); in `Faulted(k)` the outcome is that fault. -/
def stepWith (c : Config) (s : State) : Host.Outcome State Fault Refusal :=
  match s.run with
  | .halted => .next s
  | .faulted k => .fault (.faulted k)
  | .running =>
    match s.fetch c with
    | .error k => .next (s.raise k)
    | .ok i => exec i (s.advance i.size)

/-- One step of the machine with the default opcode map. -/
def step (s : State) : Host.Outcome State Fault Refusal :=
  stepWith .default s

/-- The state with the instruction word `w` of `nbits` bits stored at `ip`, zero bits above it up to the longest
instruction. Nothing else changes; a running machine whose `ip` leaves room for the instruction runs it in its next
step (log entry 7). -/
def State.withFetchWord (s : State) (nbits w : Nat) : State :=
  { s with mem := placeBytes s.ip.toNat (tableWordBytes nbits w) s.mem }

end Sys2Proof.Machine
end

