-- ==== Sys2Proof/Machine/HostPort.lean ====
section
/-! DEFINITION. The effect on a machine of the host's memory port and flag setter (spec/70_reset_and_hazards.md R157,
R158). When the host may use them is checked by `Session` (Machine/Session.lean). The registers, `sp`, `ip` and `run`
are read as the fields of the state and by `State.reg`, a flag by `State.getFlag`; the host's flag setter is
`State.hostSetFlag`. -/

namespace Sys2Proof.Machine

/-- A fault of the host port (spec/60_exceptions.md R141): it ends a machine that has not ended; a terminal run state
stays, since nothing leaves it (spec/10_state.md R17; log entry 9). -/
def State.hostRaise (s : State) (k : FaultKind) : State :=
  match s.run with
  | .running => s.raise k
  | .halted => s
  | .faulted _ => s

/-- What a guarded read of the host leaves: the byte and the machine as it was, or no byte and the fault (R141). -/
def State.hostAnswer (s : State) : Except FaultKind Byte → State × Option Byte
  | .ok b => (s, some b)
  | .error k => (s.hostRaise k, none)

/-- `mem_read(addr)`: the byte, or the fault and no byte (R157, R31). -/
def State.hostRead (s : State) (a : Nat) : State × Option Byte :=
  s.hostAnswer (s.memRead a)

/-- `mem_write(addr, byte)` (R157, R32). -/
def State.hostWrite (s : State) (a : Nat) (v : Byte) : State :=
  match s.memWrite a v with
  | .ok t => t
  | .error k => s.hostRaise k

/-- `raw_view()`: the whole array as a sequence of `CAP` bytes; it takes no address and cannot fail
(spec/20_memory.md R33). DESIGN CHOICE (log entry 14, unsafe): the view is a snapshot, the bytes at the time of the
call; the spec leaves open whether a view held across a later write shows the old or the new bytes. -/
def State.rawView (s : State) : List Byte :=
  (List.range Config.cap).map (fun a => Memory.get s.mem a)

/-- The entry of a view at an index, through the same guard as a read: an index past the view, which has `CAP` entries,
is an `OutOfBounds` (spec/20_memory.md R33, spec/90_conflicts.md C2). -/
def viewAt (view : List Byte) (a : Nat) : Except FaultKind Byte :=
  match view[a]? with
  | some b => .ok b
  | none => .error .outOfBounds

/-- The host's indexing of a view it was given: fatal for the machine where it is out of bounds (R33, R157).
The byte is the view's own: a view taken before a write still answers the old byte (DESIGN CHOICE, log entry 14). -/
def State.hostViewAt (s : State) (view : List Byte) (a : Nat) : State × Option Byte :=
  s.hostAnswer (viewAt view a)

/-- The host's flag setter, the same primitive the flag opcodes use (R158). -/
def State.hostSetFlag (s : State) (f : Flag) (v : Bool) : State :=
  if v then s.setFlag f else s.clearFlag f

end Sys2Proof.Machine
end

