-- ==== Sys2Proof/Machine/Loader.lean ====
section
/-! DEFINITION. The program loader (spec/70_reset_and_hazards.md R152 to R155), a host operation: records are
serialised at the load cursor, byte by byte through the guard. -/

namespace Sys2Proof.Machine

/-- Store bytes at consecutive addresses through the guard (R152). On a fault the bytes before the failing one stay
written (R154): the state so far is returned with the kind. -/
def State.storeBytes : Nat → List Byte → State → Except (FaultKind × State) State
  | _, [], s => .ok s
  | a, b :: bs, s =>
    match s.memWrite a b with
    | .error k => .error (k, s)
    | .ok t => State.storeBytes (a + 1) bs t

/-- The loop of `load(records)` (R152). A byte that does not fit raises `OutOfBounds` (R154, R141), and `cursor`
keeps the value it had before that record. -/
def State.loadRecords (c : Config) : List Record → State → Host.Outcome State Fault Refusal
  | [], s => .next s
  | r :: rs, s =>
    match r.encode c with
    | none => .refused .missingOperand
    | some bs =>
      match State.storeBytes s.cursor bs s with
      | .error (k, t) => .next (t.raise k)
      | .ok t => State.loadRecords c rs { t with cursor := s.cursor + bs.length }

/-- The effect of `load(records)` on a machine (R152), which needs `run = Running`; that the run has not started is the
host's side of R150 and is checked by `Session.load`. The cursor is never reset, so a second load continues where the
first stopped (R153). -/
def State.load (c : Config) (s : State) (rs : List Record) : Host.Outcome State Fault Refusal :=
  match s.run with
  | .running => State.loadRecords c rs s
  | .halted => .refused .loadAfterEnd
  | .faulted _ => .refused .loadAfterEnd

end Sys2Proof.Machine
end

