-- ==== Sys2Proof/Machine/Run.lean ====
section
/-! DEFINITION. The run loop (spec/40_engine_cycle.md R73, spec/70_reset_and_hazards.md R156) under fuel: a run need
not end (R77). -/

namespace Sys2Proof.Machine

/-- `while run = Running: step()`, at most `n` times. On a machine already `Halted` or `Faulted` it does nothing
(R156). -/
def runFor (c : Config) : Nat → State → Host.Outcome State Fault Refusal
  | 0, s => .next s
  | n + 1, s =>
    match s.run with
    | .halted => .next s
    | .faulted _ => .next s
    | .running =>
      match stepWith c s with
      | .next t => runFor c n t
      | .fault r => .fault r
      | .refused r => .refused r

end Sys2Proof.Machine
end

