-- ==== Sys2Proof/Machine/Session.lean ====
section
/-! DEFINITION. The six host operations of spec/70_reset_and_hazards.md R150 with their column "when allowed". "The life
of a machine is: `new`, then any number of `load` and memory-port calls, then `run`, then reads." Whether `run()` has
been called is no state of the machine (spec/10_state.md R10 is closed), so it stands beside the machine, in a
`Session` (log entry 13). An operation that is not allowed is refused by name: the spec has no move for it (93 U17). -/

namespace Sys2Proof.Machine

/-- A machine and whether its host has called `run()`. -/
structure Session where
  machine : State
  started : Bool
  deriving DecidableEq, Repr

/-- `new()` (R151), for given `GPR_INIT` and `MEM_INIT`. -/
def Session.new (ax bx cx dx : Word) (mem : Memory) : Session :=
  { machine := State.resetWith ax bx cx dx mem, started := false }

/-- Whether the engine runs: `run()` has been called, and the loop of R73 has not come to its end. -/
def Session.engineRuns (h : Session) : Bool :=
  h.started && h.machine.run == .running

/-- The session with its machine replaced, where an operation on the machine answers one. -/
def Session.lift (h : Session) : Host.Outcome State Fault Refusal → Host.Outcome Session Fault Refusal
  | .next s => .next { h with machine := s }
  | .fault r => .fault r
  | .refused r => .refused r

/-- An operation the host may use "not while the engine runs" (R150): what it leaves of the machine, and its answer. -/
def Session.access {α : Type} (h : Session) (f : State → State × α) : Host.Outcome (Session × α) Fault Refusal :=
  if h.engineRuns then .refused .hostDuringRun
  else .next ({ h with machine := (f h.machine).1 }, (f h.machine).2)

/-! ### Loading (R152): `run = Running` and the run not started -/

/-- `load(records)`. A run that has ended is refused by `State.load`. -/
def Session.load (c : Config) (h : Session) (rs : List Record) : Host.Outcome Session Fault Refusal :=
  if h.engineRuns then .refused .hostDuringRun else h.lift (h.machine.load c rs)

/-! ### The memory port (R157) -/

/-- `mem_read(addr)`. -/
def Session.memRead (h : Session) (a : Nat) : Host.Outcome (Session × Option Byte) Fault Refusal :=
  h.access (fun s => s.hostRead a)

/-- `mem_write(addr, byte)`. -/
def Session.memWrite (h : Session) (a : Nat) (v : Byte) : Host.Outcome (Session × Unit) Fault Refusal :=
  h.access (fun s => (s.hostWrite a v, ()))

/-- `raw_view()`, a snapshot of memory (DESIGN CHOICE, log entry 14). -/
def Session.rawView (h : Session) : Host.Outcome (Session × List Byte) Fault Refusal :=
  h.access (fun s => (s, s.rawView))

/-- Indexing a view (spec/20_memory.md R33); an old view answers its own bytes (DESIGN CHOICE, log entry 14). -/
def Session.viewAt (h : Session) (view : List Byte) (a : Nat) : Host.Outcome (Session × Option Byte) Fault Refusal :=
  h.access (fun s => s.hostViewAt view a)

/-! ### Reading state (R158) -/

/-- `get_reg`. -/
def Session.getReg (h : Session) (r : Reg) : Host.Outcome (Session × Word) Fault Refusal :=
  h.access (fun s => (s, s.reg r))

/-- `get_sp`. -/
def Session.getSp (h : Session) : Host.Outcome (Session × Word) Fault Refusal :=
  h.access (fun s => (s, s.sp))

/-- `get_ip`. -/
def Session.getIp (h : Session) : Host.Outcome (Session × Word) Fault Refusal :=
  h.access (fun s => (s, s.ip))

/-- `get_flag(f)`. -/
def Session.getFlag (h : Session) (f : Flag) : Host.Outcome (Session × Bool) Fault Refusal :=
  h.access (fun s => (s, s.getFlag f))

/-- `get_run`. -/
def Session.getRun (h : Session) : Host.Outcome (Session × RunState) Fault Refusal :=
  h.access (fun s => (s, s.run))

/-- The host-side flag setter of R158. -/
def Session.setFlag (h : Session) (f : Flag) (v : Bool) : Host.Outcome (Session × Unit) Fault Refusal :=
  h.access (fun s => (s.hostSetFlag f v, ()))

/-! ### Running (R156) -/

/-- `n` rounds of the loop `run()` has started; before `run()` the engine does nothing. -/
def Session.proceed (c : Config) (n : Nat) (h : Session) : Host.Outcome Session Fault Refusal :=
  if h.started then h.lift (runFor c n h.machine) else .next h

/-- `run()`, seen after `n` rounds of its loop (log entry 10). It is allowed once: while the engine runs it is refused,
and on a machine that has ended it does nothing (R156, the spec's decision D26). -/
def Session.run (c : Config) (n : Nat) (h : Session) : Host.Outcome Session Fault Refusal :=
  if h.engineRuns then .refused .hostDuringRun
  else
    match h.machine.run with
    | .running => Session.proceed c n { h with started := true }
    | .halted => .next h
    | .faulted _ => .next h

end Sys2Proof.Machine
end

