-- ==== Sys2Proof/Safety.lean ====
section
/-! DEFINITION. What counts as a safe run, in the terms the claims use: the invariant every state of a machine meets
from reset on, the successful end of a run, and which instructions the spec lets write what
(spec/10_state.md R10, column "written by"). -/

namespace Sys2Proof.Machine

/-- The reports a machine has emitted agree with its run state: none while it runs, one halt report with the final
state's content after HLT (spec/41_nop_halt.md R81, R82), one error report with the kind after a fault
(spec/60_exceptions.md R127, R135). -/
def State.reportsAgree (s : State) : Prop :=
  match s.run with
  | .running => s.sink = []
  | .halted => s.sink = [.halt s.haltReport]
  | .faulted k => s.sink = [.error k]

/-- The invariant of the machine. -/
structure State.Inv (s : State) : Prop where
  /-- Memory is in its canonical form, inside the address space (R30). -/
  memory : Memory.wf s.mem = true
  /-- Bits 15:4 of the flags word hold their reset value 0 "for the whole run" (R14). -/
  reserved : s.flags &&& reservedMask = 0#16
  /-- The load cursor is an offset into memory or one past its end (R19, R154). -/
  cursor : s.cursor ≤ Config.cap
  /-- Each report is emitted once, and only at the end of the run (R168). -/
  reports : s.reportsAgree

/-- `Halted` is "the only successful end of a run" (R18). -/
def State.succeeded (s : State) : Prop := s.run = .halted

/-- The flag an instruction of the flag family forces, and the value (spec/44_flags.md R100); none for the others. -/
def flagWrite : Instr → Option (Flag × Bool)
  | .nop => none
  | .hlt => none
  | .movAx _ => none
  | .movBx _ => none
  | .movCx _ => none
  | .movDx _ => none
  | .movSp _ => none
  | .ste => some (.equal, true)
  | .cle => some (.equal, false)
  | .stg => some (.greater, true)
  | .clg => some (.greater, false)
  | .sth => some (.higher, true)
  | .clh => some (.higher, false)
  | .stl => some (.lower, true)
  | .cll => some (.lower, false)
  | .push _ => none
  | .pop _ => none
  | .add => none
  | .sub => none
  | .mul => none
  | .div => none

/-- Two states that are the same but for the flags word. -/
def SameButFlags (s t : State) : Prop := { s with flags := t.flags } = t

end Sys2Proof.Machine
end

