-- ==== Sys2Proof/Certificates/Slice0/Obligations.lean ====
section
/-! DEFINITION. The statements for the provers. Each docstring names the rule of spec/ it formalises; where a clause
rests on one of the spec's own decisions (92_eei_decisions.md D<n>) or on a choice of the model (a log entry of
notes/assumptions), it says so. A configuration `c` is any injective opcode map (R53); a statement about `step` is about
the machine with the default one. A `push` or `pop` hypothesis `regOf sel = some r` is "the selector names register
`r`". -/

open Sys2Proof Sys2Proof.Machine

/-! ### Encoding -/

/-- One word or more of every family, written out bit by bit from the formats of R50 and the opcode map of R53,
decodes to the instruction it stands for under the default opcode map. The opcode numbers are the spec's decision D1. -/
def Obligations.SpecWordsDecode : Prop :=
  decode .default [0b00000001#8] = .ok (.nop, []) ∧
  decode .default [0b00000010#8] = .ok (.hlt, []) ∧
  decode .default [0b00001000#8, 0b11001101#8, 0b10101011#8] = .ok (.movAx 0xABCD#16, []) ∧
  decode .default [0b00001100#8, 0b00000000#8, 0b10000000#8] = .ok (.movSp 0x8000#16, []) ∧
  decode .default [0b00010110#8] = .ok (.stl, []) ∧
  decode .default [0b00011010#8, 0b00000011#8, 0b00000000#8] = .ok (.push 3#16, []) ∧
  decode .default [0b00011011#8, 0b11111111#8, 0b11111111#8] = .ok (.pop 0xFFFF#16, []) ∧
  decode .default [0b00100011#8] = .ok (.div, [])

/-- "`decode(encode(r)) = r`" (R58), for every opcode map and every instruction with every operand, whatever bytes
follow it. -/
def Obligations.DecodeOfEncodeIsTheInstruction : Prop :=
  ∀ (c : Config) (i : Instr) (rest : List Byte), decode c (encode c i ++ rest) = .ok (i, rest)

/-- "For all valid opcode bytes, decode followed by re-encode reproduces the identical byte sequence" (R58): the
bytes an instruction was decoded from are its encoding, followed by the bytes left over. -/
def Obligations.EncodeOfDecodeIsTheBytes : Prop :=
  ∀ (c : Config) (bs rest : List Byte) (i : Instr), decode c bs = .ok (i, rest) → bs = encode c i ++ rest

/-- Decoding rejects exactly the bytes with no row in the opcode map (R54), and otherwise only a sequence that ends
before the instruction does (R52); it never rejects for another reason. -/
def Obligations.DecodeRejectsExactly : Prop :=
  ∀ (c : Config) (b : Byte) (rest : List Byte),
    (decode c (b :: rest) = .error (.illegalOpcode b) ↔ ∀ op : Opcode, c.opc op ≠ b) ∧
    (decode c (b :: rest) = .error .truncated ↔ ∃ op : Opcode, c.opc op = b ∧ rest.length + 1 < op.format.size) ∧
    (∀ e, decode c (b :: rest) = .error e → e = .illegalOpcode b ∨ e = .truncated)

/-- The default opcode map is injective (R4), and under every opcode map the size of an instruction follows from its
opcode byte alone: 3 bytes with an operand, 1 without (R51, which the spec marks as derived). -/
def Obligations.SizeFollowsFromTheOpcodeByte : Prop :=
  (∀ op op' : Opcode, op.byte = op'.byte → op = op') ∧
  (∀ (c : Config) (op : Opcode), sizeOf? c (c.opc op) = some (if op.hasOperand then 3 else 1)) ∧
  (∀ (c : Config) (b : Byte), sizeOf? c b = none ↔ ∀ op : Opcode, c.opc op ≠ b)

/-- The host's records (R58): a one-byte opcode drops both slots, a three-byte one drops `a2` and writes `a1` low
byte first, and no selector is checked. -/
def Obligations.RecordsEncodeBySize : Prop :=
  ∀ (c : Config) (op : Opcode) (v : Word) (a1 a2 : Option Word),
    (op.format = .f1 → Record.encode c { opcode := op, a1 := a1, a2 := a2 } = some [c.opc op]) ∧
    (op.format = .f3 → Record.encode c { opcode := op, a1 := some v, a2 := a2 } =
      some [c.opc op, v.extractLsb' 0 8, v.extractLsb' 8 8])

/-- The selector numbers (R56): 0 to 3 name AX, BX, CX, DX, and every other value of the 16 bits is out of range.
The numbers and the width of the comparison are the spec's decisions D3 and D25. -/
def Obligations.SelectorsNameTheFourRegisters : Prop :=
  ∀ sel : Word,
    (regOf sel = some .ax ↔ sel.toNat = 0) ∧ (regOf sel = some .bx ↔ sel.toNat = 1) ∧
    (regOf sel = some .cx ↔ sel.toNat = 2) ∧ (regOf sel = some .dx ↔ sel.toNat = 3) ∧
    (regOf sel = none ↔ 4 ≤ sel.toNat)

/-! ### Memory -/

/-- `MemRead(addr, 1)` (R31). -/
def Obligations.ByteReadIsGuarded : Prop :=
  ∀ (s : State) (a : Nat),
    (Config.cap ≤ a → s.memRead a = .error .outOfBounds) ∧
    (a < Config.cap → s.memRead a = .ok (Memory.get s.mem a))

/-- `MemWrite(addr, 1, v)` (R32): out of range it fails; in range the byte is `v` and no other byte changes. -/
def Obligations.ByteWriteChangesOneByte : Prop :=
  ∀ (s : State) (a : Nat) (v : Byte),
    (Config.cap ≤ a → s.memWrite a v = .error .outOfBounds) ∧
    (a < Config.cap → ∃ t, s.memWrite a v = .ok t ∧ t.memRead a = .ok v ∧
      (∀ b, b ≠ a → t.memRead b = s.memRead b) ∧ t = { s with mem := t.mem })

/-- The 16-bit accesses (R36): little-endian, both addresses checked before either byte is written. -/
def Obligations.WordAccessIsTwoByteAccesses : Prop :=
  ∀ (s : State) (a : Nat) (v : Word),
    (∀ lo hi, s.memRead a = .ok lo → s.memRead (a + 1) = .ok hi → s.memRead16 a = .ok (hi ++ lo)) ∧
    (Config.cap ≤ a ∨ Config.cap ≤ a + 1 → s.memRead16 a = .error .outOfBounds ∧
      s.memWrite16 a v = .error .outOfBounds) ∧
    (a + 1 < Config.cap → ∃ t, s.memWrite16 a v = .ok t ∧
      t.memRead a = .ok (v.extractLsb' 0 8) ∧ t.memRead (a + 1) = .ok (v.extractLsb' 8 8) ∧
      t.memRead16 a = .ok v ∧
      (∀ b, b ≠ a → b ≠ a + 1 → t.memRead b = s.memRead b) ∧ t = { s with mem := t.mem })

/-! ### The step -/

/-- A step runs the decoded instruction (R70), under every opcode map: when the bytes read at `ip` decode to `i`, the
step is `exec i` on the state whose `ip` has advanced by the size of `i`, modulo 65536 (R72, the spec's decision D10),
and nothing else has changed. `step` is the step under the default map. -/
def Obligations.StepRunsTheDecodedInstruction : Prop :=
  (∀ (c : Config) (s : State) (n : Nat) (bs rest : List Byte) (i : Instr),
    s.run = .running → s.readBytes s.ip.toNat n = .ok bs → decode c bs = .ok (i, rest) →
    stepWith c s = exec i (s.advance i.size) ∧
    (s.advance i.size).ip.toNat = (s.ip.toNat + i.size) % 65536 ∧
    s.advance i.size = { s with ip := (s.advance i.size).ip }) ∧
  (∀ s : State, step s = stepWith .default s)

/-- `IllegalInstruction` (R122): a running machine goes to `Faulted(IllegalInstruction)` in its next step exactly
when the byte at `ip` is none of the 21 opcode bytes of the opcode map, wherever `ip` is, and `ip` still points at that
byte. -/
def Obligations.IllegalOpcodeByteFaults : Prop :=
  ∀ (c : Config) (s : State), s.run = .running →
    ((∃ t, stepWith c s = .next t ∧ t.run = .faulted .illegalInstruction) ↔
      ∀ op : Opcode, c.opc op ≠ Memory.get s.mem s.ip.toNat) ∧
    (∀ t, stepWith c s = .next t → t.run = .faulted .illegalInstruction → t.ip = s.ip)

/-- `OutOfBounds` of the fetch (R71, R121): exactly a three-byte opcode at 0xFFFE or 0xFFFF, with `ip` still at the
opcode byte. That operand addresses do not wrap is the spec's decision D11. -/
def Obligations.OperandBeyondMemoryFaults : Prop :=
  ∀ (c : Config) (s : State), s.run = .running →
    ((∃ t, stepWith c s = .next t ∧ t.run = .faulted .outOfBounds) ↔
      (∃ op : Opcode, c.opc op = Memory.get s.mem s.ip.toNat ∧ op.format = .f3) ∧ 0xFFFE ≤ s.ip.toNat) ∧
    (∀ t, stepWith c s = .next t → t.run = .faulted .outOfBounds → t.ip = s.ip)

/-- Dispatch is total (R74): every instruction answers a next state in every state, and so does every step of a
running machine; a machine never gets stuck while it runs. That the step which raises a fault answers a next state is
the model's form (log entry 4). -/
def Obligations.RunningMachineAlwaysSteps : Prop :=
  (∀ (i : Instr) (s : State), ∃ t, exec i s = .next t) ∧
  (∀ s : State, s.run = .running → ∃ t, step s = .next t)

/-- The instruction pointer (R13, R76): no instruction writes it, and a step either takes a fetch fault and leaves it,
or advances it by the size of the instruction modulo 65536 (the wrap is the spec's decision D10). -/
def Obligations.InstructionPointerOnlyAdvances : Prop :=
  (∀ (i : Instr) (s t : State), exec i s = .next t → t.ip = s.ip) ∧
  (∀ s t : State, s.run = .running → step s = .next t →
    (∃ k, s.fetch .default = .error k ∧ t.ip = s.ip) ∨
    (∃ i, s.fetch .default = .ok i ∧ t.ip.toNat = (s.ip.toNat + i.size) % 65536))

/-- The transitions of the run state (R17): `Running` becomes `Halted` by `HLT` only; every other step stays
`Running` or takes a fault; a terminal machine changes nothing. That a step from `Halted` answers the same state and
one from `Faulted(k)` the fault `k` is the model's form of "takes no step and changes no state" (log entry 5). -/
def Obligations.RunStateTransitions : Prop :=
  (∀ s t : State, s.run = .running → step s = .next t →
    (t.run = .halted ↔ s.fetch .default = .ok .hlt) ∧
    (s.fetch .default ≠ .ok .hlt → t.run = .running ∨ ∃ k, t.run = .faulted k ∧ t.sink = s.sink ++ [.error k])) ∧
  (∀ s : State, s.run = .halted → step s = .next s) ∧
  (∀ (s : State) (k : FaultKind), s.run = .faulted k → step s = .fault (.faulted k))

/-- Instruction fetch sees every write at once (R44, R160): a push whose low or high byte lands where `ip` now points
decides what the next step runs. Which byte lands where is the spec's decisions D7 and D8. -/
def Obligations.PushedByteIsFetchedNext : Prop :=
  ∀ (s t : State) (sel : Word) (r : Reg) (i : Instr),
    s.run = .running → regOf sel = some r → 2 ≤ s.sp.toNat → exec (.push sel) s = .next t → i.size = 1 →
    (s.ip.toNat = s.pushAddr → (s.reg r).extractLsb' 0 8 = i.opcode.byte → step t = exec i (t.advance 1)) ∧
    (s.ip.toNat = s.sp.toNat → (s.reg r).extractLsb' 8 8 = i.opcode.byte → step t = exec i (t.advance 1))

/-! ### NOP, HLT and the moves -/

/-- `NOP` (R80): "No-op: no state change"; the only effect of its step is the auto-advance, which wraps (D10). The
byte 0x01 is the spec's decision D1. -/
def Obligations.NopOnlyAdvances : Prop :=
  (∀ s : State, exec .nop s = .next s) ∧
  (∀ s : State, s.run = .running → Memory.get s.mem s.ip.toNat = 0x01#8 →
    step s = .next { s with ip := s.ip + 1#16 })

/-- `HLT` (R81, R82): the run state becomes `Halted`, one halt report is emitted, with the four general registers, the
stack pointer and the bytes 0xFFE0 to 0xFFFF in ascending order, and nothing else changes. That reports are kept in
the field `sink` is the model's choice (log entry 3); that a report is a record is the spec's decision D22. -/
def Obligations.HaltReportsAndEndsTheRun : Prop :=
  ∀ s : State, ∃ (t : State) (dump : List Byte), exec .hlt s = .next t ∧ t.run = .halted ∧
    dump.length = 32 ∧ (∀ k, k < 32 → dump[k]? = some (Memory.get s.mem (0xFFE0 + k))) ∧
    t.sink = s.sink ++ [.halt { ax := s.ax, bx := s.bx, cx := s.cx, dx := s.dx, sp := s.sp, dump := dump }] ∧
    t = { s with run := t.run, sink := t.sink }

/-- The move-immediate family (R85): the whole operand is written to the named destination, for every operand and in
every state, and nothing else changes. -/
def Obligations.MovesWriteTheLiteral : Prop :=
  ∀ (v : Word) (s : State),
    exec (.movAx v) s = .next { s with ax := v } ∧
    exec (.movBx v) s = .next { s with bx := v } ∧
    exec (.movCx v) s = .next { s with cx := v } ∧
    exec (.movDx v) s = .next { s with dx := v } ∧
    exec (.movSp v) s = .next { s with sp := v }

/-! ### Flags -/

/-- The flag primitives (R15): `get`, `set`, `clear` by the flag's mask; a set flag reads true and a cleared one
false; every other bit is untouched; setting a set flag and clearing a clear flag change nothing. -/
def Obligations.FlagPrimitivesForceOneBit : Prop :=
  ∀ (s : State) (f : Flag),
    (s.getFlag f = true ↔ s.flags &&& flagMask f ≠ 0#16) ∧
    (s.setFlag f).flags = s.flags ||| flagMask f ∧
    (s.clearFlag f).flags = s.flags &&& ~~~(flagMask f) ∧
    (s.setFlag f).getFlag f = true ∧
    (s.clearFlag f).getFlag f = false ∧
    (∀ b, b ≠ flagBit f → (s.setFlag f).flags.getLsbD b = s.flags.getLsbD b ∧
      (s.clearFlag f).flags.getLsbD b = s.flags.getLsbD b) ∧
    (s.getFlag f = true → s.setFlag f = s) ∧
    (s.getFlag f = false → s.clearFlag f = s)

/-- The eight flag opcodes (R101 to R108): the word after, with the masks of the rules (the positions are the spec's
decision D2), and nothing else changes. -/
def Obligations.FlagOpcodesForceTheirBit : Prop :=
  ∀ s : State,
    exec .ste s = .next { s with flags := s.flags ||| 0x0008#16 } ∧
    exec .cle s = .next { s with flags := s.flags &&& 0xFFF7#16 } ∧
    exec .stg s = .next { s with flags := s.flags ||| 0x0004#16 } ∧
    exec .clg s = .next { s with flags := s.flags &&& 0xFFFB#16 } ∧
    exec .sth s = .next { s with flags := s.flags ||| 0x0002#16 } ∧
    exec .clh s = .next { s with flags := s.flags &&& 0xFFFD#16 } ∧
    exec .stl s = .next { s with flags := s.flags ||| 0x0001#16 } ∧
    exec .cll s = .next { s with flags := s.flags &&& 0xFFFE#16 }

/-- Who writes and who reads the flags (R16). Only a step that runs one of the eight flag opcodes changes them: no
arithmetic, move, push, pop, fault or halt does. And nothing reads them: from two states that differ only in the
flags, a step stops alike or leads to two states that differ only in the flags, reports and memory included. -/
def Obligations.FlagsHaveEightWritersAndNoReader : Prop :=
  (∀ s t : State, step s = .next t → (∀ i, s.fetch .default = .ok i → flagWrite i = none) → t.flags = s.flags) ∧
  (∀ (s t : State) (w : Word), step s = .next t →
    ∃ u, step { s with flags := w } = .next u ∧ SameButFlags t u) ∧
  (∀ (s : State) (w : Word) (r : Fault), step s = .fault r → step { s with flags := w } = .fault r)

/-! ### Arithmetic -/

/-- `ADD` (R94): AX becomes the sum modulo 65536 and nothing else changes. That the carry is discarded is the spec's
decision D12. -/
def Obligations.AddWraps : Prop :=
  ∀ s : State, ∃ t, exec .add s = .next t ∧
    t.ax.toNat = (s.ax.toNat + s.bx.toNat) % 65536 ∧ t = { s with ax := t.ax }

/-- `SUB` (R95): AX becomes the difference modulo 65536 and nothing else changes (D12). -/
def Obligations.SubWraps : Prop :=
  ∀ s : State, ∃ t, exec .sub s = .next t ∧
    (t.ax.toNat : Int) = ((s.ax.toNat : Int) - (s.bx.toNat : Int)) % 65536 ∧ t = { s with ax := t.ax }

/-- `MUL` (R96): AX becomes the low 16 bits of the product and nothing else changes, DX included (D12). -/
def Obligations.MulKeepsTheLowHalf : Prop :=
  ∀ s : State, ∃ t, exec .mul s = .next t ∧
    t.ax.toNat = (s.ax.toNat * s.bx.toNat) % 65536 ∧ t = { s with ax := t.ax }

/-- `DIV` with a divisor other than 0 (R97): AX becomes the unsigned quotient rounded toward zero and nothing else
changes. That the division is unsigned is the spec's decision D13. -/
def Obligations.DivTruncates : Prop :=
  ∀ s : State, s.bx ≠ 0#16 → ∃ t, exec .div s = .next t ∧
    t.ax.toNat * s.bx.toNat ≤ s.ax.toNat ∧ s.ax.toNat < (t.ax.toNat + 1) * s.bx.toNat ∧
    t = { s with ax := t.ax }

/-- `DivisionByZero` (R124): a step that runs `DIV` with BX = 0 goes to `Faulted(DivisionByZero)`; AX is not changed,
`ip` has advanced past the `DIV`, nothing else has changed. -/
def Obligations.DivByZeroFaults : Prop :=
  ∀ s : State, s.run = .running → s.fetch .default = .ok .div → s.bx = 0#16 →
    ∃ t, step s = .next t ∧ t.run = .faulted .divisionByZero ∧ t.ax = s.ax ∧ t.ip = s.ip + 1#16 ∧
      t = { s with ip := t.ip, run := t.run, sink := t.sink }

/-! ### Stack -/

/-- `PUSH` that passes its checks (R111): the bytes of the register at `sp - 1` (low) and `sp` (high), `sp` less 2, and
nothing else changed, in memory or outside it. The slot's place and byte order are the spec's decisions D7 and D8. -/
def Obligations.PushStoresTheRegister : Prop :=
  ∀ (s : State) (sel : Word) (r : Reg), regOf sel = some r → 2 ≤ s.sp.toNat →
    ∃ t, exec (.push sel) s = .next t ∧ t.sp.toNat = s.sp.toNat - 2 ∧
      s.pushAddr = s.sp.toNat - 1 ∧
      Memory.get t.mem s.pushAddr = (s.reg r).extractLsb' 0 8 ∧
      Memory.get t.mem (s.pushAddr + 1) = (s.reg r).extractLsb' 8 8 ∧
      (∀ a, a ≠ s.pushAddr → a ≠ s.pushAddr + 1 → Memory.get t.mem a = Memory.get s.mem a) ∧
      t = { s with sp := t.sp, mem := t.mem }

/-- `POP` that passes its checks (R112): the register takes the bytes at `sp + 1` (low) and `sp + 2` (high), `sp` plus
2, every other register, every byte of memory and everything else unchanged. The slot's place, the byte order and
the threshold of the check are the spec's decisions D7, D8 and D9. -/
def Obligations.PopLoadsTheRegister : Prop :=
  ∀ (s : State) (sel : Word) (r : Reg), regOf sel = some r → s.sp.toNat ≤ 0xFFFD →
    ∃ t, exec (.pop sel) s = .next t ∧ t.sp.toNat = s.sp.toNat + 2 ∧
      (t.reg r).toNat =
        (Memory.get s.mem (s.sp.toNat + 2)).toNat * 256 + (Memory.get s.mem (s.sp.toNat + 1)).toNat ∧
      (∀ q, q ≠ r → t.reg q = s.reg q) ∧
      t.mem = s.mem ∧ t.ip = s.ip ∧ t.flags = s.flags ∧ t.run = s.run ∧ t.cursor = s.cursor ∧ t.sink = s.sink

/-- Push then pop (R115, which the spec marks as derived): the registers are as before but for the popped one, which
takes the pushed register's value; on the same register all are exactly as before; `sp` is restored; memory differs
in at most the two pushed bytes. -/
def Obligations.PushThenPopRestores : Prop :=
  ∀ (s : State) (a b : Word) (ra rb : Reg), regOf a = some ra → regOf b = some rb → 2 ≤ s.sp.toNat →
    ∃ t u, exec (.push a) s = .next t ∧ exec (.pop b) t = .next u ∧
      u.reg rb = s.reg ra ∧ (∀ q, q ≠ rb → u.reg q = s.reg q) ∧ (ra = rb → ∀ q, u.reg q = s.reg q) ∧
      u.sp = s.sp ∧ u.flags = s.flags ∧ u.run = s.run ∧
      (∀ x, x ≠ s.sp.toNat - 1 → x ≠ s.sp.toNat → Memory.get u.mem x = Memory.get s.mem x)

/-- `StackOverflow` (R125): a step that runs a `PUSH` of a general register with `sp < 2` goes to
`Faulted(StackOverflow)`; memory and `sp` are not changed and `ip` has advanced past the `PUSH`. -/
def Obligations.PushWithNoRoomFaults : Prop :=
  ∀ (s : State) (sel : Word) (r : Reg), s.run = .running → s.fetch .default = .ok (.push sel) → regOf sel = some r →
    s.sp.toNat < 2 →
    ∃ t, step s = .next t ∧ t.run = .faulted .stackOverflow ∧ t.mem = s.mem ∧ t.sp = s.sp ∧
      t.ip = s.ip + 3#16

/-! ### Faults -/

/-- When an instruction faults and with which kind (R120, R123 to R126, R129): a selector of 4 or more comes before the
stack check, and no instruction raises a fetch fault. The order of the two checks, the underflow threshold and the
width of the selector comparison are the spec's decisions D17, D9 and D25. -/
def Obligations.FaultCausesAreExact : Prop :=
  ∀ (i : Instr) (s t : State), s.run = .running → exec i s = .next t →
    (t.run = .faulted .divisionByZero ↔ i = .div ∧ s.bx = 0#16) ∧
    (t.run = .faulted .invalidOperand ↔ ∃ sel : Word, (i = .push sel ∨ i = .pop sel) ∧ 4 ≤ sel.toNat) ∧
    (t.run = .faulted .stackOverflow ↔ ∃ sel : Word, i = .push sel ∧ sel.toNat < 4 ∧ s.sp.toNat < 2) ∧
    (t.run = .faulted .stackUnderflow ↔ ∃ sel : Word, i = .pop sel ∧ sel.toNat < 4 ∧ 0xFFFD < s.sp.toNat) ∧
    t.run ≠ .faulted .outOfBounds ∧ t.run ≠ .faulted .illegalInstruction

/-- Fault entry (R127, R128): whichever step of a running machine faults, the error report with the kind is emitted
and `run` becomes `Faulted(k)`; `ip` is at the opcode byte for a fetch fault and past the instruction otherwise;
nothing else changes. Precision is the spec's decision D18; that the report is kept in `sink` is log entry 3. -/
def Obligations.FaultsArePrecise : Prop :=
  ∀ (s t : State) (k : FaultKind), s.run = .running → step s = .next t → t.run = .faulted k →
    (t.ip = s.ip ↔ k = .outOfBounds ∨ k = .illegalInstruction) ∧
    (∀ i, s.fetch .default = .ok i → t.ip.toNat = (s.ip.toNat + i.size) % 65536) ∧
    t = { s with ip := t.ip, run := .faulted k, sink := s.sink ++ [.error k] }

/-! ### Whole-machine rules -/

/-- The column "written by" of R10: which instructions can change which element. No instruction writes `ip` or
`cursor`, only PUSH changes memory. -/
def Obligations.EachElementHasItsWriters : Prop :=
  ∀ (i : Instr) (s t : State), exec i s = .next t →
    t.ip = s.ip ∧ t.cursor = s.cursor ∧
    (t.mem ≠ s.mem → i.opcode = .push) ∧
    (t.sp ≠ s.sp → i.opcode ∈ [.movSp, .push, .pop]) ∧
    (t.flags ≠ s.flags → i.opcode ∈ [.ste, .cle, .stg, .clg, .sth, .clh, .stl, .cll]) ∧
    (t.ax ≠ s.ax → i.opcode ∈ [.movAx, .pop, .add, .sub, .mul, .div]) ∧
    (t.bx ≠ s.bx → i.opcode ∈ [.movBx, .pop]) ∧
    (t.cx ≠ s.cx → i.opcode ∈ [.movCx, .pop]) ∧
    (t.dx ≠ s.dx → i.opcode ∈ [.movDx, .pop]) ∧
    (t.run ≠ s.run → i.opcode ∈ [.hlt, .push, .pop, .div])

/-- The load cursor "is host-side bookkeeping that no instruction can observe" (R19): a step from two states that
differ only in it leads to two states that differ only in it. -/
def Obligations.CursorInfluencesNothing : Prop :=
  ∀ (s t : State) (c : Nat), step s = .next t →
    t.cursor = s.cursor ∧ step { s with cursor := c } = .next { t with cursor := c }

/-- Reset (R22, R151), for every `GPR_INIT` and `MEM_INIT`: the values the spec gives. 0xFFFF, the reserved flag bits
and the cursor are its decisions D6, D16 and D20; the empty `sink` is the model's (log entry 3). The zeros of
`State.reset` are the model's choice (log entries 1 and 2). -/
def Obligations.ResetValues : Prop :=
  (∀ (a b c d : Word) (m : Memory), State.resetWith a b c d m =
    { ax := a, bx := b, cx := c, dx := d, sp := 0xFFFF#16, ip := 0x0000#16, flags := 0x0000#16, run := .running,
      cursor := 0, mem := m, sink := [] }) ∧
  State.reset = State.resetWith 0#16 0#16 0#16 0#16 [] ∧
  (∀ a, Memory.get State.reset.mem a = 0#8)

/-- The invariant holds after reset, whatever the registers and a canonical memory hold (R22, R14, R30). -/
def Obligations.ResetMeetsTheInvariant : Prop :=
  ∀ (a b c d : Word) (m : Memory), Memory.wf m = true → (State.resetWith a b c d m).Inv

/-- Every step keeps the invariant, from every state that meets it: memory stays canonical and inside the address
space (R30), the reserved flag bits stay 0 "for the whole run" (R14), the cursor stays an offset into memory (R19),
and reports are emitted once, at the end, with the final state's content (R82, R127, R168). The form of memory and
the field `sink` are the model's (log entries 2 and 3). -/
def Obligations.EveryStepKeepsTheInvariant : Prop :=
  ∀ s t : State, s.Inv → step s = .next t → t.Inv

/-- The run loop "while run = Running: step()" (R73, R156), under every opcode map: it always comes back with a state,
does nothing on a machine that has ended, a round on a running machine is its step, and `n + m` rounds are `n` rounds
followed by `m`. Fuel is the model's form of a run that need not end (log entry 10). -/
def Obligations.RunLoopStopsOnlyAtTheEnd : Prop :=
  (∀ (c : Config) (n : Nat) (s : State), ∃ t, runFor c n s = .next t) ∧
  (∀ (c : Config) (n : Nat) (s : State), s.run ≠ .running → runFor c n s = .next s) ∧
  (∀ (c : Config) (s : State), s.run = .running → runFor c 1 s = stepWith c s) ∧
  (∀ s : State, s.run = .running → runFor .default 1 s = step s) ∧
  (∀ (c : Config) (n m : Nat) (s t : State), runFor c n s = .next t → runFor c (n + m) s = runFor c m t)

/-- The infinite run the spec requires a model to admit (R77), under every opcode map: from memory filled with `NOP`, a
running machine is still running after any number of steps, with only `ip` moved, modulo 65536 (D10). Fuel is
the model's form of a run that need not end (log entry 10). -/
def Obligations.NopFilledMemoryNeverStops : Prop :=
  ∀ (c : Config) (s : State), s.run = .running → (∀ a, a < Config.cap → Memory.get s.mem a = c.opc .nop) →
    ∀ n, ∃ t, runFor c n s = .next t ∧ t.run = .running ∧ t.ip.toNat = (s.ip.toNat + n) % 65536 ∧
      t = { s with ip := t.ip }

/-! ### The host's operations -/

/-- `load(records)` (R152) of records that fit: their encodings stand one after another from the load cursor on, the
cursor has advanced by their length, every other byte keeps its value, and nothing else changes. The first load of a
new machine starts at address 0. -/
def Obligations.LoadSerialisesAtTheCursor : Prop :=
  (∀ (k : Config) (s : State) (rs : List Record) (bss : List (List Byte)), s.run = .running →
    rs.map (Record.encode k) = bss.map some → s.cursor + bss.flatten.length ≤ Config.cap →
    ∃ t, s.load k rs = .next t ∧ t.cursor = s.cursor + bss.flatten.length ∧
      (∀ (j : Nat) (v : Byte), bss.flatten[j]? = some v → Memory.get t.mem (s.cursor + j) = v) ∧
      (∀ a, a < s.cursor ∨ s.cursor + bss.flatten.length ≤ a → Memory.get t.mem a = Memory.get s.mem a) ∧
      t = { s with mem := t.mem, cursor := t.cursor }) ∧
  (∀ (a b c d : Word) (m : Memory), (State.resetWith a b c d m).cursor = 0)

/-- A record that does not fit (R154): `OutOfBounds`; the bytes before the failing one stay written and `cursor` keeps
the value it had before that record. Both are the spec's decision D21. -/
def Obligations.LoadBeyondMemoryFaults : Prop :=
  ∀ (c : Config) (s : State) (r : Record) (rs : List Record) (bs : List Byte), s.run = .running →
    r.encode c = some bs → Config.cap < s.cursor + bs.length →
    ∃ t, s.load c (r :: rs) = .next t ∧ t.run = .faulted .outOfBounds ∧ t.cursor = s.cursor ∧
      (∀ (k : Nat) (v : Byte), bs[k]? = some v → s.cursor + k < Config.cap →
        Memory.get t.mem (s.cursor + k) = v) ∧
      (∀ a, a < s.cursor → Memory.get t.mem a = Memory.get s.mem a) ∧
      t.reg = s.reg ∧ t.sp = s.sp ∧ t.ip = s.ip ∧ t.flags = s.flags

/-- Loading again concatenates (R153, the spec's decision D20): a second load is the first one continued. -/
def Obligations.SecondLoadContinuesTheFirst : Prop :=
  ∀ (c : Config) (s t : State) (rs rs' : List Record), s.load c rs = .next t → t.run = .running →
    t.load c rs' = s.load c (rs ++ rs')

/-- The loader keeps the invariant of the machine (R30, R154). The form of memory and the field `sink` are the model's
(log entries 2 and 3). -/
def Obligations.LoadKeepsTheInvariant : Prop :=
  ∀ (c : Config) (s t : State) (rs : List Record), s.Inv → s.load c rs = .next t → t.Inv

/-- The host's memory port (R157, R33): the guarded byte accesses, the whole-array view and the indexing of a view, old
or new, under the same guard; a bad address changes no byte and ends a machine that has not ended (R141). That it
leaves a machine that has ended as it is is the model's choice (log entry 9), and so is that a view taken in a state `u`
keeps answering `u`'s bytes in another state `s` (log entry 14). -/
def Obligations.HostPortIsGuarded : Prop :=
  ∀ (s u : State) (a : Nat) (v : Byte),
    s.rawView.length = Config.cap ∧ viewAt s.rawView a = s.memRead a ∧
    (a < Config.cap → s.hostRead a = (s, some (Memory.get s.mem a)) ∧
      s.hostViewAt u.rawView a = (s, some (Memory.get u.mem a)) ∧
      Memory.get (s.hostWrite a v).mem a = v ∧
      (∀ b, b ≠ a → Memory.get (s.hostWrite a v).mem b = Memory.get s.mem b) ∧
      s.hostWrite a v = { s with mem := (s.hostWrite a v).mem }) ∧
    (Config.cap ≤ a → viewAt s.rawView a = .error .outOfBounds ∧
      (s.hostRead a).2 = none ∧ (s.hostViewAt u.rawView a).2 = none ∧
      (s.hostRead a).1.mem = s.mem ∧ (s.hostViewAt u.rawView a).1.mem = s.mem ∧ (s.hostWrite a v).mem = s.mem ∧
      (s.run = .running → (s.hostRead a).1.run = .faulted .outOfBounds ∧
        (s.hostViewAt u.rawView a).1.run = .faulted .outOfBounds ∧
        (s.hostWrite a v).run = .faulted .outOfBounds) ∧
      (s.run ≠ .running → (s.hostRead a).1 = s ∧ (s.hostViewAt u.rawView a).1 = s ∧ s.hostWrite a v = s))

/-- When the host may act (R150, R156 to R158). While the engine runs every host operation is refused. Before `run()`
and after the end of the run the memory port, the getters and the flag setter act. `load` acts before `run()` on a
running machine, `run()` starts its loop there once, and on a machine that has ended `load` is refused and `run()`
does nothing. The order of calls and the single `run()` are the spec's decisions D24 and D26; that a call which is not
allowed is refused by name, and the place of `started`, are the model's choice (log entry 13), and so are the rounds
`run()` is seen after (log entry 10) and that a view is a snapshot (log entry 14). -/
def Obligations.HostActsOnlyWhenAllowed : Prop :=
  ∀ (c : Config) (h : Session) (rs : List Record) (n a : Nat) (v : Byte) (view : List Byte) (r : Reg) (f : Flag)
    (b : Bool),
    (h.started = true → h.machine.run = .running →
      h.load c rs = .refused .hostDuringRun ∧ h.run c n = .refused .hostDuringRun ∧
      h.memRead a = .refused .hostDuringRun ∧ h.memWrite a v = .refused .hostDuringRun ∧
      h.rawView = .refused .hostDuringRun ∧ h.viewAt view a = .refused .hostDuringRun ∧
      h.getReg r = .refused .hostDuringRun ∧ h.getSp = .refused .hostDuringRun ∧
      h.getIp = .refused .hostDuringRun ∧ h.getFlag f = .refused .hostDuringRun ∧
      h.getRun = .refused .hostDuringRun ∧ h.setFlag f b = .refused .hostDuringRun) ∧
    (h.started = false ∨ h.machine.run ≠ .running →
      h.memRead a = .next ({ h with machine := (h.machine.hostRead a).1 }, (h.machine.hostRead a).2) ∧
      h.memWrite a v = .next ({ h with machine := h.machine.hostWrite a v }, ()) ∧
      h.rawView = .next (h, h.machine.rawView) ∧
      h.viewAt view a =
        .next ({ h with machine := (h.machine.hostViewAt view a).1 }, (h.machine.hostViewAt view a).2) ∧
      h.getReg r = .next (h, h.machine.reg r) ∧ h.getSp = .next (h, h.machine.sp) ∧
      h.getIp = .next (h, h.machine.ip) ∧ h.getFlag f = .next (h, h.machine.getFlag f) ∧
      h.getRun = .next (h, h.machine.run) ∧
      h.setFlag f b = .next ({ h with machine := h.machine.hostSetFlag f b }, ())) ∧
    (h.started = false → h.proceed c n = .next h) ∧
    (h.started = true → ∃ t, runFor c n h.machine = .next t ∧ h.proceed c n = .next { h with machine := t }) ∧
    (h.started = false → h.machine.run = .running →
      (∀ t, h.machine.load c rs = .next t → h.load c rs = .next { h with machine := t }) ∧
      ∃ t, runFor c n h.machine = .next t ∧ h.run c n = .next { machine := t, started := true }) ∧
    (h.machine.run ≠ .running → h.load c rs = .refused .loadAfterEnd ∧ h.run c n = .next h)

/-- What the host may do before the run, and the run itself, keep the invariant of the machine (R141, R156 to R158):
reads and the flag setter always, a write on a machine that has not ended, and any number of rounds of the loop. The
form of memory and the field `sink` are the model's (log entries 2 and 3). -/
def Obligations.HostOperationsKeepTheInvariant : Prop :=
  ∀ (c : Config) (s : State) (a n : Nat) (v : Byte) (view : List Byte) (f : Flag) (b : Bool), s.Inv →
    (s.hostRead a).1.Inv ∧ (s.hostViewAt view a).1.Inv ∧ (s.hostSetFlag f b).Inv ∧
    (s.run = .running → (s.hostWrite a v).Inv) ∧
    (∀ t, runFor c n s = .next t → t.Inv)
end

