-- ==== Sys2Proof/Laws/Decode.lean ====
section
/-! SUPPORT. The laws of the byte order, of the opcode map, and of the decoder and encoder read separately. -/

namespace Sys2Proof

/-! ### Byte order -/

theorem wordOfBytes_low_high (v : Word) : wordOfBytes (lowByte v) (highByte v) = v := by
  unfold wordOfBytes lowByte highByte
  ext i hi
  simp only [BitVec.getElem_append, BitVec.getElem_extractLsb']
  split
  · simp [BitVec.getLsbD_eq_getElem hi]
  · have : 8 + (i - 8) = i := by omega
    simp [this, BitVec.getLsbD_eq_getElem hi]

theorem lowByte_wordOfBytes (lo hi : Byte) : lowByte (wordOfBytes lo hi) = lo := by
  ext i h
  have := BitVec.getLsbD_append (x := hi) (y := lo) (i := i)
  simp_all [wordOfBytes, lowByte]

theorem highByte_wordOfBytes (lo hi : Byte) : highByte (wordOfBytes lo hi) = hi := by
  ext i h
  have := BitVec.getLsbD_append (x := hi) (y := lo) (i := 8 + i)
  simp_all [wordOfBytes, highByte]

/-- `hi*256 + lo` (R36, R52). -/
theorem toNat_wordOfBytes (lo hi : Byte) : (wordOfBytes lo hi).toNat = hi.toNat * 256 + lo.toNat := by
  have h := lo.isLt
  rw [wordOfBytes, BitVec.toNat_append, ← Nat.shiftLeft_add_eq_or_of_lt h, Nat.shiftLeft_eq]

/-! ### The opcode map -/

@[simp] theorem Config.default_opc (op : Opcode) : Config.default.opc op = op.byte := rfl

theorem Opcode.mem_all (op : Opcode) : op ∈ Opcode.all := by cases op <;> decide

theorem byte_of_opcodeOf {c : Config} {b : Byte} {op : Opcode} (h : opcodeOf c b = some op) : c.opc op = b := by
  simpa using List.find?_some h

theorem opcodeOf_byte (c : Config) (op : Opcode) : opcodeOf c (c.opc op) = some op := by
  cases h : opcodeOf c (c.opc op) with
  | none => simpa using List.find?_eq_none.1 h op op.mem_all
  | some op' => rw [c.injective _ _ (byte_of_opcodeOf h)]

@[simp] theorem opcodeOf_default_byte (op : Opcode) : opcodeOf .default op.byte = some op :=
  opcodeOf_byte .default op

theorem opcodeOf_eq_some {c : Config} {b : Byte} {op : Opcode} : opcodeOf c b = some op ↔ c.opc op = b :=
  ⟨byte_of_opcodeOf, fun h => h ▸ opcodeOf_byte c op⟩

theorem opcodeOf_eq_none {c : Config} {b : Byte} : opcodeOf c b = none ↔ ∀ op : Opcode, c.opc op ≠ b := by
  constructor
  · intro h op e
    simp [← e, opcodeOf_byte] at h
  · intro h
    cases e : opcodeOf c b with
    | none => rfl
    | some op => exact absurd (byte_of_opcodeOf e) (h op)

theorem sizeOf?_byte (c : Config) (op : Opcode) : sizeOf? c (c.opc op) = some op.format.size := by
  simp [sizeOf?, opcodeOf_byte]

/-! ### Instructions and their operands -/

@[simp] theorem Instr.instr_opcode_operand (i : Instr) : i.opcode.instr (i.operand.getD 0#16) = i := by
  cases i <;> rfl

@[simp] theorem Opcode.opcode_instr (op : Opcode) (v : Word) : (op.instr v).opcode = op := by cases op <;> rfl

/-- No opcode has the reserved format (R55), and the three-byte opcodes are those with an operand (R51). -/
theorem Opcode.format_cases (op : Opcode) :
    (op.format = .f1 ∧ op.hasOperand = false ∧ ∀ v, (op.instr v).operand = none) ∨
    (op.format = .f3 ∧ op.hasOperand = true ∧ ∀ v, (op.instr v).operand = some v) := by
  cases op <;> simp [Opcode.format, Opcode.hasOperand, Opcode.instr, Instr.operand]

/-- Every instruction is 1 or 3 bytes long (R50, R51). -/
theorem Instr.size_cases (i : Instr) : i.size = 1 ∨ i.size = 3 := by
  cases i <;> simp [Instr.size, Instr.opcode, Opcode.format, Format.size]

/-- The encoder by size (R58). -/
theorem encode_cases (c : Config) (i : Instr) :
    (i.size = 1 ∧ i.operand = none ∧ encode c i = [c.opc i.opcode]) ∨
    (i.size = 3 ∧ ∃ v, i.operand = some v ∧ encode c i = [c.opc i.opcode, lowByte v, highByte v]) := by
  cases i <;>
    simp [Instr.size, Instr.opcode, Opcode.format, Format.size, encode, operandBytes, Instr.operand]

end Sys2Proof
end

