-- ==== Sys2Proof/Laws/Memory.lean ====
section
/-! SUPPORT. The laws of memory: what a read finds after a write, and that every memory operation keeps the canonical
form. The first hold for every list of cells, canonical or not. -/

namespace Sys2Proof.Machine

/-! ### A read after a write -/

theorem Memory.get_erase_self (m : Memory) (a : Nat) : Memory.get (Memory.erase m a) a = Config.memInit := by
  induction m with
  | nil => rfl
  | cons c m ih =>
    by_cases h : c.1 = a <;> simp_all [Memory.erase, Memory.get]

theorem Memory.get_erase_of_ne (m : Memory) {a b : Nat} (h : b ≠ a) :
    Memory.get (Memory.erase m a) b = Memory.get m b := by
  induction m with
  | nil => rfl
  | cons c m ih =>
    by_cases hc : c.1 = a
    · have hb : c.1 ≠ b := fun e => h (e.symm.trans hc)
      simp_all [Memory.erase, Memory.get]
    · simp_all [Memory.erase, Memory.get]

theorem Memory.get_insert_of_ne (m : Memory) {a b : Nat} (v : Byte) (h : b ≠ a) :
    Memory.get (Memory.insert m a v) b = Memory.get m b := by
  induction m with
  | nil => simp [Memory.insert, Memory.get, Ne.symm h]
  | cons c m ih =>
    by_cases hc : a < c.1
    · simp [Memory.insert, Memory.get, hc, Ne.symm h]
    · simp [Memory.insert, Memory.get, hc, ih]

theorem Memory.get_insert_self (m : Memory) (a : Nat) (v : Byte) (h : ∀ c ∈ m, c.1 ≠ a) :
    Memory.get (Memory.insert m a v) a = v := by
  induction m with
  | nil => simp [Memory.insert, Memory.get]
  | cons c m ih =>
    have hc : c.1 ≠ a := h c (by simp)
    have hm : ∀ d ∈ m, d.1 ≠ a := fun d hd => h d (by simp [hd])
    by_cases hlt : a < c.1 <;> simp [Memory.insert, Memory.get, hlt, hc, ih hm]

/-- The byte just written is read back. -/
@[simp] theorem Memory.get_set_self (m : Memory) (a : Nat) (v : Byte) : Memory.get (Memory.set m a v) a = v := by
  unfold Memory.set
  split
  · simp_all [Memory.get_erase_self]
  · exact Memory.get_insert_self _ _ _ (by simp [Memory.erase])

/-- Every other byte is as before. -/
theorem Memory.get_set_of_ne (m : Memory) {a b : Nat} (v : Byte) (h : b ≠ a) :
    Memory.get (Memory.set m a v) b = Memory.get m b := by
  unfold Memory.set
  split
  · exact Memory.get_erase_of_ne m h
  · rw [Memory.get_insert_of_ne _ v h, Memory.get_erase_of_ne m h]

@[simp] theorem Memory.get_set16_low (m : Memory) (a : Nat) (v : Word) :
    Memory.get (Memory.set16 m a v) a = lowByte v := by
  rw [Memory.set16, Memory.get_set_of_ne _ _ (by omega), Memory.get_set_self]

@[simp] theorem Memory.get_set16_high (m : Memory) (a : Nat) (v : Word) :
    Memory.get (Memory.set16 m a v) (a + 1) = highByte v := by
  rw [Memory.set16, Memory.get_set_self]

theorem Memory.get_set16_of_ne (m : Memory) {a b : Nat} (v : Word) (h0 : b ≠ a) (h1 : b ≠ a + 1) :
    Memory.get (Memory.set16 m a v) b = Memory.get m b := by
  rw [Memory.set16, Memory.get_set_of_ne _ _ h1, Memory.get_set_of_ne _ _ h0]

/-! ### The canonical form -/

theorem Memory.wf_iff (m : Memory) : Memory.wf m = true ↔
    m.Pairwise (fun c d => c.1 < d.1) ∧ ∀ c ∈ m, c.1 < Config.cap ∧ c.2 ≠ Config.memInit := by
  simp [Memory.wf]

theorem Memory.mem_insert {m : Memory} {a : Nat} {v : Byte} {c : Host.Cell} :
    c ∈ Memory.insert m a v ↔ c = (a, v) ∨ c ∈ m := by
  induction m with
  | nil => simp [Memory.insert]
  | cons d m ih =>
    by_cases h : a < d.1
    · simp [Memory.insert, h]
    · simp only [Memory.insert, h, if_false, List.mem_cons, ih]
      tauto

theorem Memory.wf_erase {m : Memory} (a : Nat) (h : Memory.wf m = true) : Memory.wf (Memory.erase m a) = true := by
  rw [Memory.wf_iff] at h ⊢
  exact ⟨h.1.filter _, fun c hc => h.2 c (List.mem_of_mem_filter hc)⟩

theorem Memory.pairwise_insert {m : Memory} {a : Nat} (v : Byte) (h : m.Pairwise (fun c d => c.1 < d.1))
    (hne : ∀ c ∈ m, c.1 ≠ a) : (Memory.insert m a v).Pairwise (fun c d => c.1 < d.1) := by
  induction m with
  | nil => simp [Memory.insert]
  | cons c m ih =>
    have hc : c.1 ≠ a := hne c (by simp)
    rw [List.pairwise_cons] at h
    by_cases hlt : a < c.1
    · simp only [Memory.insert, hlt, if_true, List.pairwise_cons, List.mem_cons]
      refine ⟨?_, h⟩
      rintro d (rfl | hd)
      · exact hlt
      · exact hlt.trans (h.1 d hd)
    · simp only [Memory.insert, hlt, if_false, List.pairwise_cons, Memory.mem_insert]
      refine ⟨?_, ih h.2 (fun d hd => hne d (by simp [hd]))⟩
      rintro d (rfl | hd)
      · show c.1 < a
        omega
      · exact h.1 d hd

/-- Writing a byte inside the address space keeps the canonical form. -/
theorem Memory.wf_set {m : Memory} {a : Nat} (v : Byte) (h : Memory.wf m = true) (ha : a < Config.cap) :
    Memory.wf (Memory.set m a v) = true := by
  unfold Memory.set
  split
  · exact Memory.wf_erase a h
  · have he := (Memory.wf_iff _).1 (Memory.wf_erase a h)
    rw [Memory.wf_iff]
    refine ⟨Memory.pairwise_insert v he.1 (by simp [Memory.erase]), ?_⟩
    intro c hc
    rcases Memory.mem_insert.1 hc with rfl | hc
    · exact ⟨ha, by assumption⟩
    · exact he.2 c hc

/-- Writing a word inside the address space keeps the canonical form. -/
theorem Memory.wf_set16 {m : Memory} {a : Nat} (v : Word) (h : Memory.wf m = true) (ha : a + 1 < Config.cap) :
    Memory.wf (Memory.set16 m a v) = true :=
  Memory.wf_set _ (Memory.wf_set _ h (by omega)) ha

/-! ### The guarded primitives: each says once all it can answer -/

theorem State.memRead_of_lt (s : State) {a : Nat} (h : a < Config.cap) :
    s.memRead a = .ok (Memory.get s.mem a) := by simp [State.memRead, h]

theorem State.memRead_of_ge (s : State) {a : Nat} (h : Config.cap ≤ a) : s.memRead a = .error .outOfBounds := by
  simp [State.memRead, Nat.not_lt.2 h]

theorem State.memRead_cases (s : State) (a : Nat) :
    (a < Config.cap ∧ s.memRead a = .ok (Memory.get s.mem a)) ∨
    (Config.cap ≤ a ∧ s.memRead a = .error .outOfBounds) := by
  by_cases h : a < Config.cap
  · exact .inl ⟨h, s.memRead_of_lt h⟩
  · exact .inr ⟨Nat.not_lt.1 h, s.memRead_of_ge (Nat.not_lt.1 h)⟩

theorem State.memWrite_of_lt (s : State) {a : Nat} (v : Byte) (h : a < Config.cap) :
    s.memWrite a v = .ok { s with mem := Memory.set s.mem a v } := by simp [State.memWrite, h]

theorem State.memWrite_of_ge (s : State) {a : Nat} (v : Byte) (h : Config.cap ≤ a) :
    s.memWrite a v = .error .outOfBounds := by simp [State.memWrite, Nat.not_lt.2 h]

theorem State.memRead16_of_lt (s : State) {a : Nat} (h : a + 1 < Config.cap) :
    s.memRead16 a = .ok (wordOfBytes (Memory.get s.mem a) (Memory.get s.mem (a + 1))) := by
  simp [State.memRead16, s.memRead_of_lt h, s.memRead_of_lt (Nat.lt_of_succ_lt h)]

theorem State.memWrite16_of_lt (s : State) {a : Nat} (v : Word) (h : a + 1 < Config.cap) :
    s.memWrite16 a v = .ok { s with mem := Memory.set16 s.mem a v } := by
  simp [State.memWrite16, h, Nat.lt_of_succ_lt h]

theorem State.readBytes_of_le (s : State) {a n : Nat} (h : a + n ≤ Config.cap) :
    s.readBytes a n = .ok ((List.range n).map (fun k => Memory.get s.mem (a + k))) := by
  induction n generalizing a with
  | zero => rfl
  | succ n ih =>
    rw [State.readBytes, s.memRead_of_lt (by omega), ih (by omega), List.range_succ_eq_map]
    simp [Function.comp_def, Nat.add_assoc, Nat.add_comm 1]

theorem State.readBytes_of_gt (s : State) {a n : Nat} (h : Config.cap < a + n) (ha : a ≤ Config.cap) :
    s.readBytes a n = .error .outOfBounds := by
  induction n generalizing a with
  | zero => omega
  | succ n ih =>
    rw [State.readBytes]
    rcases s.memRead_cases a with ⟨hlt, e⟩ | ⟨_, e⟩
    · rw [e, ih (by omega) (by omega)]
    · rw [e]

end Sys2Proof.Machine
end

