-- ==== Sys2Proof/Laws/State.lean ====
section
/-! SUPPORT. One lemma per field per named update of the state, so that no proof unfolds a record update. -/

namespace Sys2Proof.Machine

/-! ### `State.setSp` -/

@[simp] theorem State.setSp_ax (s : State) (v : Word) : (s.setSp v).ax = s.ax := rfl
@[simp] theorem State.setSp_bx (s : State) (v : Word) : (s.setSp v).bx = s.bx := rfl
@[simp] theorem State.setSp_cx (s : State) (v : Word) : (s.setSp v).cx = s.cx := rfl
@[simp] theorem State.setSp_dx (s : State) (v : Word) : (s.setSp v).dx = s.dx := rfl
@[simp] theorem State.setSp_sp (s : State) (v : Word) : (s.setSp v).sp = v := rfl
@[simp] theorem State.setSp_ip (s : State) (v : Word) : (s.setSp v).ip = s.ip := rfl
@[simp] theorem State.setSp_flags (s : State) (v : Word) : (s.setSp v).flags = s.flags := rfl
@[simp] theorem State.setSp_run (s : State) (v : Word) : (s.setSp v).run = s.run := rfl
@[simp] theorem State.setSp_cursor (s : State) (v : Word) : (s.setSp v).cursor = s.cursor := rfl
@[simp] theorem State.setSp_mem (s : State) (v : Word) : (s.setSp v).mem = s.mem := rfl
@[simp] theorem State.setSp_sink (s : State) (v : Word) : (s.setSp v).sink = s.sink := rfl
@[simp] theorem State.setSp_reg (s : State) (v : Word) (r : Reg) : (s.setSp v).reg r = s.reg r := by cases r <;> rfl

/-! ### `State.advance` -/

@[simp] theorem State.advance_ax (s : State) (n : Nat) : (s.advance n).ax = s.ax := rfl
@[simp] theorem State.advance_bx (s : State) (n : Nat) : (s.advance n).bx = s.bx := rfl
@[simp] theorem State.advance_cx (s : State) (n : Nat) : (s.advance n).cx = s.cx := rfl
@[simp] theorem State.advance_dx (s : State) (n : Nat) : (s.advance n).dx = s.dx := rfl
@[simp] theorem State.advance_sp (s : State) (n : Nat) : (s.advance n).sp = s.sp := rfl
@[simp] theorem State.advance_ip (s : State) (n : Nat) : (s.advance n).ip = s.ip + BitVec.ofNat 16 n := rfl
@[simp] theorem State.advance_flags (s : State) (n : Nat) : (s.advance n).flags = s.flags := rfl
@[simp] theorem State.advance_run (s : State) (n : Nat) : (s.advance n).run = s.run := rfl
@[simp] theorem State.advance_cursor (s : State) (n : Nat) : (s.advance n).cursor = s.cursor := rfl
@[simp] theorem State.advance_mem (s : State) (n : Nat) : (s.advance n).mem = s.mem := rfl
@[simp] theorem State.advance_sink (s : State) (n : Nat) : (s.advance n).sink = s.sink := rfl
@[simp] theorem State.advance_reg (s : State) (n : Nat) (r : Reg) : (s.advance n).reg r = s.reg r := by cases r <;> rfl

/-! ### `State.raise` -/

@[simp] theorem State.raise_ax (s : State) (k : FaultKind) : (s.raise k).ax = s.ax := rfl
@[simp] theorem State.raise_bx (s : State) (k : FaultKind) : (s.raise k).bx = s.bx := rfl
@[simp] theorem State.raise_cx (s : State) (k : FaultKind) : (s.raise k).cx = s.cx := rfl
@[simp] theorem State.raise_dx (s : State) (k : FaultKind) : (s.raise k).dx = s.dx := rfl
@[simp] theorem State.raise_sp (s : State) (k : FaultKind) : (s.raise k).sp = s.sp := rfl
@[simp] theorem State.raise_ip (s : State) (k : FaultKind) : (s.raise k).ip = s.ip := rfl
@[simp] theorem State.raise_flags (s : State) (k : FaultKind) : (s.raise k).flags = s.flags := rfl
@[simp] theorem State.raise_run (s : State) (k : FaultKind) : (s.raise k).run = .faulted k := rfl
@[simp] theorem State.raise_cursor (s : State) (k : FaultKind) : (s.raise k).cursor = s.cursor := rfl
@[simp] theorem State.raise_mem (s : State) (k : FaultKind) : (s.raise k).mem = s.mem := rfl
@[simp] theorem State.raise_sink (s : State) (k : FaultKind) : (s.raise k).sink = s.sink ++ [.error k] := rfl
@[simp] theorem State.raise_reg (s : State) (k : FaultKind) (r : Reg) : (s.raise k).reg r = s.reg r := by cases r <;> rfl

/-! ### `State.halt` -/

@[simp] theorem State.halt_ax (s : State) : s.halt.ax = s.ax := rfl
@[simp] theorem State.halt_bx (s : State) : s.halt.bx = s.bx := rfl
@[simp] theorem State.halt_cx (s : State) : s.halt.cx = s.cx := rfl
@[simp] theorem State.halt_dx (s : State) : s.halt.dx = s.dx := rfl
@[simp] theorem State.halt_sp (s : State) : s.halt.sp = s.sp := rfl
@[simp] theorem State.halt_ip (s : State) : s.halt.ip = s.ip := rfl
@[simp] theorem State.halt_flags (s : State) : s.halt.flags = s.flags := rfl
@[simp] theorem State.halt_run (s : State) : s.halt.run = .halted := rfl
@[simp] theorem State.halt_cursor (s : State) : s.halt.cursor = s.cursor := rfl
@[simp] theorem State.halt_mem (s : State) : s.halt.mem = s.mem := rfl
@[simp] theorem State.halt_sink (s : State) : s.halt.sink = s.sink ++ [.halt s.haltReport] := rfl
@[simp] theorem State.halt_reg (s : State) (r : Reg) : s.halt.reg r = s.reg r := by cases r <;> rfl

/-! ### `State.setFlag` -/

@[simp] theorem State.setFlag_ax (s : State) (f : Flag) : (s.setFlag f).ax = s.ax := rfl
@[simp] theorem State.setFlag_bx (s : State) (f : Flag) : (s.setFlag f).bx = s.bx := rfl
@[simp] theorem State.setFlag_cx (s : State) (f : Flag) : (s.setFlag f).cx = s.cx := rfl
@[simp] theorem State.setFlag_dx (s : State) (f : Flag) : (s.setFlag f).dx = s.dx := rfl
@[simp] theorem State.setFlag_sp (s : State) (f : Flag) : (s.setFlag f).sp = s.sp := rfl
@[simp] theorem State.setFlag_ip (s : State) (f : Flag) : (s.setFlag f).ip = s.ip := rfl
@[simp] theorem State.setFlag_flags (s : State) (f : Flag) : (s.setFlag f).flags = s.flags ||| flagMask f := rfl
@[simp] theorem State.setFlag_run (s : State) (f : Flag) : (s.setFlag f).run = s.run := rfl
@[simp] theorem State.setFlag_cursor (s : State) (f : Flag) : (s.setFlag f).cursor = s.cursor := rfl
@[simp] theorem State.setFlag_mem (s : State) (f : Flag) : (s.setFlag f).mem = s.mem := rfl
@[simp] theorem State.setFlag_sink (s : State) (f : Flag) : (s.setFlag f).sink = s.sink := rfl
@[simp] theorem State.setFlag_reg (s : State) (f : Flag) (r : Reg) : (s.setFlag f).reg r = s.reg r := by cases r <;> rfl

/-! ### `State.clearFlag` -/

@[simp] theorem State.clearFlag_ax (s : State) (f : Flag) : (s.clearFlag f).ax = s.ax := rfl
@[simp] theorem State.clearFlag_bx (s : State) (f : Flag) : (s.clearFlag f).bx = s.bx := rfl
@[simp] theorem State.clearFlag_cx (s : State) (f : Flag) : (s.clearFlag f).cx = s.cx := rfl
@[simp] theorem State.clearFlag_dx (s : State) (f : Flag) : (s.clearFlag f).dx = s.dx := rfl
@[simp] theorem State.clearFlag_sp (s : State) (f : Flag) : (s.clearFlag f).sp = s.sp := rfl
@[simp] theorem State.clearFlag_ip (s : State) (f : Flag) : (s.clearFlag f).ip = s.ip := rfl
@[simp] theorem State.clearFlag_flags (s : State) (f : Flag) : (s.clearFlag f).flags = s.flags &&& ~~~(flagMask f) := rfl
@[simp] theorem State.clearFlag_run (s : State) (f : Flag) : (s.clearFlag f).run = s.run := rfl
@[simp] theorem State.clearFlag_cursor (s : State) (f : Flag) : (s.clearFlag f).cursor = s.cursor := rfl
@[simp] theorem State.clearFlag_mem (s : State) (f : Flag) : (s.clearFlag f).mem = s.mem := rfl
@[simp] theorem State.clearFlag_sink (s : State) (f : Flag) : (s.clearFlag f).sink = s.sink := rfl
@[simp] theorem State.clearFlag_reg (s : State) (f : Flag) (r : Reg) : (s.clearFlag f).reg r = s.reg r := by cases r <;> rfl

/-! ### `State.setReg` -/

@[simp] theorem State.setReg_sp (s : State) (r : Reg) (v : Word) : (s.setReg r v).sp = s.sp := by cases r <;> rfl
@[simp] theorem State.setReg_ip (s : State) (r : Reg) (v : Word) : (s.setReg r v).ip = s.ip := by cases r <;> rfl
@[simp] theorem State.setReg_flags (s : State) (r : Reg) (v : Word) : (s.setReg r v).flags = s.flags := by cases r <;> rfl
@[simp] theorem State.setReg_run (s : State) (r : Reg) (v : Word) : (s.setReg r v).run = s.run := by cases r <;> rfl
@[simp] theorem State.setReg_cursor (s : State) (r : Reg) (v : Word) : (s.setReg r v).cursor = s.cursor := by cases r <;> rfl
@[simp] theorem State.setReg_mem (s : State) (r : Reg) (v : Word) : (s.setReg r v).mem = s.mem := by cases r <;> rfl
@[simp] theorem State.setReg_sink (s : State) (r : Reg) (v : Word) : (s.setReg r v).sink = s.sink := by cases r <;> rfl

@[simp] theorem State.setReg_reg_self (s : State) (r : Reg) (v : Word) : (s.setReg r v).reg r = v := by
  cases r <;> rfl

theorem State.setReg_reg_of_ne (s : State) (v : Word) {r q : Reg} (h : q ≠ r) :
    (s.setReg r v).reg q = s.reg q := by
  cases r <;> cases q <;> first | rfl | exact absurd rfl h

@[simp] theorem State.setReg_setReg (s : State) (r : Reg) (u v : Word) :
    (s.setReg r u).setReg r v = s.setReg r v := by cases r <;> rfl

@[simp] theorem State.setReg_reg (s : State) (r : Reg) : s.setReg r (s.reg r) = s := by cases r <;> rfl

@[simp] theorem State.setReg_ax_ax (s : State) (v : Word) : (s.setReg .ax v).ax = v := rfl
@[simp] theorem State.setReg_ax_bx (s : State) (v : Word) : (s.setReg .ax v).bx = s.bx := rfl
@[simp] theorem State.setReg_ax_cx (s : State) (v : Word) : (s.setReg .ax v).cx = s.cx := rfl
@[simp] theorem State.setReg_ax_dx (s : State) (v : Word) : (s.setReg .ax v).dx = s.dx := rfl
@[simp] theorem State.setReg_bx_ax (s : State) (v : Word) : (s.setReg .bx v).ax = s.ax := rfl
@[simp] theorem State.setReg_bx_bx (s : State) (v : Word) : (s.setReg .bx v).bx = v := rfl
@[simp] theorem State.setReg_bx_cx (s : State) (v : Word) : (s.setReg .bx v).cx = s.cx := rfl
@[simp] theorem State.setReg_bx_dx (s : State) (v : Word) : (s.setReg .bx v).dx = s.dx := rfl
@[simp] theorem State.setReg_cx_ax (s : State) (v : Word) : (s.setReg .cx v).ax = s.ax := rfl
@[simp] theorem State.setReg_cx_bx (s : State) (v : Word) : (s.setReg .cx v).bx = s.bx := rfl
@[simp] theorem State.setReg_cx_cx (s : State) (v : Word) : (s.setReg .cx v).cx = v := rfl
@[simp] theorem State.setReg_cx_dx (s : State) (v : Word) : (s.setReg .cx v).dx = s.dx := rfl
@[simp] theorem State.setReg_dx_ax (s : State) (v : Word) : (s.setReg .dx v).ax = s.ax := rfl
@[simp] theorem State.setReg_dx_bx (s : State) (v : Word) : (s.setReg .dx v).bx = s.bx := rfl
@[simp] theorem State.setReg_dx_cx (s : State) (v : Word) : (s.setReg .dx v).cx = s.cx := rfl
@[simp] theorem State.setReg_dx_dx (s : State) (v : Word) : (s.setReg .dx v).dx = v := rfl

/-! ### `State.reg` -/

@[simp] theorem State.reg_ax (s : State) : s.reg .ax = s.ax := rfl
@[simp] theorem State.reg_bx (s : State) : s.reg .bx = s.bx := rfl
@[simp] theorem State.reg_cx (s : State) : s.reg .cx = s.cx := rfl
@[simp] theorem State.reg_dx (s : State) : s.reg .dx = s.dx := rfl

end Sys2Proof.Machine
end

