-- ==== Sys2Proof/Laws/Exec.lean ====
section
/-! SUPPORT. What each meaning can answer, said once: the equations of the instructions with one outcome, the case
lemmas of DIV, PUSH and POP, and the inversion of `exec` that the frame proofs cite. -/

namespace Sys2Proof.Machine

/-! ### The operands -/

theorem regOf_selectorOf (r : Reg) : regOf (selectorOf r) = some r := by cases r <;> decide

theorem selectorOf_of_regOf {sel : Word} {r : Reg} (h : regOf sel = some r) : selectorOf r = sel := by
  simpa using List.find?_some h

theorem regOf_eq_none {sel : Word} : regOf sel = none ↔ 4 ≤ sel.toNat := by
  constructor
  · intro h
    by_contra hlt
    have hcases : sel = 0#16 ∨ sel = 1#16 ∨ sel = 2#16 ∨ sel = 3#16 := by
      have : sel.toNat = 0 ∨ sel.toNat = 1 ∨ sel.toNat = 2 ∨ sel.toNat = 3 := by omega
      rcases this with e | e | e | e
      · exact .inl (BitVec.eq_of_toNat_eq e)
      · exact .inr (.inl (BitVec.eq_of_toNat_eq e))
      · exact .inr (.inr (.inl (BitVec.eq_of_toNat_eq e)))
      · exact .inr (.inr (.inr (BitVec.eq_of_toNat_eq e)))
    rcases hcases with rfl | rfl | rfl | rfl <;> exact absurd h (by decide)
  · intro h
    cases e : regOf sel with
    | none => rfl
    | some r =>
      rw [← selectorOf_of_regOf e] at h
      cases r <;> exact absurd h (by decide)

theorem State.pushOverflows_iff (s : State) : s.pushOverflows = true ↔ s.sp.toNat < 2 := by
  simp [State.pushOverflows]

theorem State.popUnderflows_iff (s : State) : s.popUnderflows = true ↔ 0xFFFD < s.sp.toNat := by
  have := s.sp.isLt
  simp only [State.popUnderflows, decide_eq_true_eq, Config.spInit, Config.slot, BitVec.toNat_ofNat]
  omega

/-! ### The instructions with one outcome -/

theorem exec_nop (s : State) : exec .nop s = .next s := rfl
theorem exec_hlt (s : State) : exec .hlt s = .next s.halt := rfl
theorem exec_movAx (v : Word) (s : State) : exec (.movAx v) s = .next (s.setReg .ax v) := rfl
theorem exec_movBx (v : Word) (s : State) : exec (.movBx v) s = .next (s.setReg .bx v) := rfl
theorem exec_movCx (v : Word) (s : State) : exec (.movCx v) s = .next (s.setReg .cx v) := rfl
theorem exec_movDx (v : Word) (s : State) : exec (.movDx v) s = .next (s.setReg .dx v) := rfl
theorem exec_movSp (v : Word) (s : State) : exec (.movSp v) s = .next (s.setSp v) := rfl
theorem exec_ste (s : State) : exec .ste s = .next (s.setFlag .equal) := rfl
theorem exec_cle (s : State) : exec .cle s = .next (s.clearFlag .equal) := rfl
theorem exec_stg (s : State) : exec .stg s = .next (s.setFlag .greater) := rfl
theorem exec_clg (s : State) : exec .clg s = .next (s.clearFlag .greater) := rfl
theorem exec_sth (s : State) : exec .sth s = .next (s.setFlag .higher) := rfl
theorem exec_clh (s : State) : exec .clh s = .next (s.clearFlag .higher) := rfl
theorem exec_stl (s : State) : exec .stl s = .next (s.setFlag .lower) := rfl
theorem exec_cll (s : State) : exec .cll s = .next (s.clearFlag .lower) := rfl
theorem exec_add (s : State) :
    exec .add s = .next (s.setReg .ax (wrap16 (s.ax.toNat + s.bx.toNat))) := rfl
theorem exec_sub (s : State) :
    exec .sub s = .next (s.setReg .ax (wrap16 (s.ax.toNat + 65536 - s.bx.toNat))) := rfl
theorem exec_mul (s : State) :
    exec .mul s = .next (s.setReg .ax (wrap16 (s.ax.toNat * s.bx.toNat))) := rfl

/-! ### DIV, PUSH and POP -/

theorem exec_div_zero {s : State} (h : s.bx = 0#16) : exec .div s = .next (s.raise .divisionByZero) := by
  simp [exec, execDiv, h]

theorem exec_div_nonzero {s : State} (h : s.bx ≠ 0#16) :
    exec .div s = .next (s.setReg .ax (div16 s.ax s.bx)) := by
  simp [exec, execDiv, h]

theorem exec_push_invalid {sel : Word} (s : State) (h : regOf sel = none) :
    exec (.push sel) s = .next (s.raise .invalidOperand) := by
  simp [exec, execPush, h]

theorem exec_push_overflow {sel : Word} {s : State} {r : Reg} (h : regOf sel = some r) (ho : s.sp.toNat < 2) :
    exec (.push sel) s = .next (s.raise .stackOverflow) := by
  simp [exec, execPush, h, s.pushOverflows_iff.2 ho]

/-- A push that passes both checks: the guard of `MemWrite` cannot refuse it (R111). -/
theorem exec_push_ok {sel : Word} {s : State} {r : Reg} (h : regOf sel = some r) (ho : 2 ≤ s.sp.toNat) :
    exec (.push sel) s =
      .next (State.setSp { s with mem := Memory.set16 s.mem s.pushAddr (s.reg r) } (s.sp - 2#16)) := by
  have hno : ¬ s.pushOverflows = true := by rw [State.pushOverflows_iff]; omega
  have hlt := s.sp.isLt
  have hw := s.memWrite16_of_lt (a := s.pushAddr) (s.reg r) (by simp only [State.pushAddr, Config.cap]; omega)
  simp [exec, execPush, h, hno, hw]

theorem exec_pop_invalid {sel : Word} (s : State) (h : regOf sel = none) :
    exec (.pop sel) s = .next (s.raise .invalidOperand) := by
  simp [exec, execPop, h]

theorem exec_pop_underflow {sel : Word} {s : State} {r : Reg} (h : regOf sel = some r)
    (hu : 0xFFFD < s.sp.toNat) : exec (.pop sel) s = .next (s.raise .stackUnderflow) := by
  simp [exec, execPop, h, s.popUnderflows_iff.2 hu]

/-- A pop that passes both checks: the guard of `MemRead` cannot refuse it (R112). -/
theorem exec_pop_ok {sel : Word} {s : State} {r : Reg} (h : regOf sel = some r) (hu : s.sp.toNat ≤ 0xFFFD) :
    exec (.pop sel) s =
      .next ((s.setReg r (wordOfBytes (Memory.get s.mem s.popAddr) (Memory.get s.mem (s.popAddr + 1)))).setSp
        (s.sp + 2#16)) := by
  have hno : ¬ s.popUnderflows = true := by rw [State.popUnderflows_iff]; omega
  have hr := s.memRead16_of_lt (a := s.popAddr) (by simp only [State.popAddr, Config.cap]; omega)
  simp [exec, execPop, h, hno, hr]

/-! ### Inversion: everything `exec` can do -/

/-- How an instruction takes a state to the next: one constructor per shape of effect, faults taken included. -/
inductive ExecEffect (s : State) : Instr → State → Prop where
  | nop : ExecEffect s .nop s
  | hlt : ExecEffect s .hlt s.halt
  | movAx (v : Word) : ExecEffect s (.movAx v) (s.setReg .ax v)
  | movBx (v : Word) : ExecEffect s (.movBx v) (s.setReg .bx v)
  | movCx (v : Word) : ExecEffect s (.movCx v) (s.setReg .cx v)
  | movDx (v : Word) : ExecEffect s (.movDx v) (s.setReg .dx v)
  | movSp (v : Word) : ExecEffect s (.movSp v) (s.setSp v)
  | setFlag {i : Instr} {f : Flag} (h : flagWrite i = some (f, true)) : ExecEffect s i (s.setFlag f)
  | clearFlag {i : Instr} {f : Flag} (h : flagWrite i = some (f, false)) : ExecEffect s i (s.clearFlag f)
  | pushInvalid {sel : Word} (h : regOf sel = none) : ExecEffect s (.push sel) (s.raise .invalidOperand)
  | pushOverflow {sel : Word} {r : Reg} (h : regOf sel = some r) (ho : s.sp.toNat < 2) :
      ExecEffect s (.push sel) (s.raise .stackOverflow)
  | push {sel : Word} {r : Reg} (h : regOf sel = some r) (ho : 2 ≤ s.sp.toNat) :
      ExecEffect s (.push sel)
        (State.setSp { s with mem := Memory.set16 s.mem s.pushAddr (s.reg r) } (s.sp - 2#16))
  | popInvalid {sel : Word} (h : regOf sel = none) : ExecEffect s (.pop sel) (s.raise .invalidOperand)
  | popUnderflow {sel : Word} {r : Reg} (h : regOf sel = some r) (hu : 0xFFFD < s.sp.toNat) :
      ExecEffect s (.pop sel) (s.raise .stackUnderflow)
  | pop {sel : Word} {r : Reg} (h : regOf sel = some r) (hu : s.sp.toNat ≤ 0xFFFD) :
      ExecEffect s (.pop sel)
        ((s.setReg r (wordOfBytes (Memory.get s.mem s.popAddr) (Memory.get s.mem (s.popAddr + 1)))).setSp
          (s.sp + 2#16))
  | add : ExecEffect s .add (s.setReg .ax (wrap16 (s.ax.toNat + s.bx.toNat)))
  | sub : ExecEffect s .sub (s.setReg .ax (wrap16 (s.ax.toNat + 65536 - s.bx.toNat)))
  | mul : ExecEffect s .mul (s.setReg .ax (wrap16 (s.ax.toNat * s.bx.toNat)))
  | divZero (h : s.bx = 0#16) : ExecEffect s .div (s.raise .divisionByZero)
  | div (h : s.bx ≠ 0#16) : ExecEffect s .div (s.setReg .ax (div16 s.ax s.bx))

/-- `exec` always answers a next state, and one of these effects is how it got there. -/
theorem exec_effect (i : Instr) (s : State) : ∃ t, exec i s = .next t ∧ ExecEffect s i t := by
  cases i with
  | nop => exact ⟨_, exec_nop s, .nop⟩
  | hlt => exact ⟨_, exec_hlt s, .hlt⟩
  | movAx v => exact ⟨_, exec_movAx v s, .movAx v⟩
  | movBx v => exact ⟨_, exec_movBx v s, .movBx v⟩
  | movCx v => exact ⟨_, exec_movCx v s, .movCx v⟩
  | movDx v => exact ⟨_, exec_movDx v s, .movDx v⟩
  | movSp v => exact ⟨_, exec_movSp v s, .movSp v⟩
  | ste => exact ⟨_, exec_ste s, .setFlag rfl⟩
  | cle => exact ⟨_, exec_cle s, .clearFlag rfl⟩
  | stg => exact ⟨_, exec_stg s, .setFlag rfl⟩
  | clg => exact ⟨_, exec_clg s, .clearFlag rfl⟩
  | sth => exact ⟨_, exec_sth s, .setFlag rfl⟩
  | clh => exact ⟨_, exec_clh s, .clearFlag rfl⟩
  | stl => exact ⟨_, exec_stl s, .setFlag rfl⟩
  | cll => exact ⟨_, exec_cll s, .clearFlag rfl⟩
  | push sel =>
    cases h : regOf sel with
    | none => exact ⟨_, exec_push_invalid s h, .pushInvalid h⟩
    | some r =>
      rcases Nat.lt_or_ge s.sp.toNat 2 with ho | ho
      · exact ⟨_, exec_push_overflow h ho, .pushOverflow h ho⟩
      · exact ⟨_, exec_push_ok h ho, .push h ho⟩
  | pop sel =>
    cases h : regOf sel with
    | none => exact ⟨_, exec_pop_invalid s h, .popInvalid h⟩
    | some r =>
      rcases Nat.lt_or_ge 0xFFFD s.sp.toNat with hu | hu
      · exact ⟨_, exec_pop_underflow h hu, .popUnderflow h hu⟩
      · exact ⟨_, exec_pop_ok h hu, .pop h hu⟩
  | add => exact ⟨_, exec_add s, .add⟩
  | sub => exact ⟨_, exec_sub s, .sub⟩
  | mul => exact ⟨_, exec_mul s, .mul⟩
  | div =>
    by_cases h : s.bx = 0#16
    · exact ⟨_, exec_div_zero h, .divZero h⟩
    · exact ⟨_, exec_div_nonzero h, .div h⟩

/-- The inversion of `exec`: from its answer to the effect. -/
theorem exec_next {i : Instr} {s t : State} (h : exec i s = .next t) : ExecEffect s i t := by
  obtain ⟨t', e, he⟩ := exec_effect i s
  rw [e] at h
  cases h
  exact he

end Sys2Proof.Machine
end

