-- ==== Sys2Proof/Laws/Flags.lean ====
section
/-! SUPPORT. The bits of the flag masks. -/

namespace Sys2Proof.Machine

theorem flagBit_lt (f : Flag) : flagBit f < 16 := by cases f <;> decide

/-- A mask has exactly its flag's bit. -/
theorem getLsbD_flagMask (f : Flag) (b : Nat) : (flagMask f).getLsbD b = decide (b = flagBit f) := by
  unfold flagMask
  by_cases hb : b < 16
  · interval_cases b <;> cases f <;> decide
  · have hne : b ≠ flagBit f := by
      have := flagBit_lt f
      omega
    rw [BitVec.getLsbD_of_ge _ _ (by omega)]
    simp [hne]

/-- No flag lies in the reserved bits (R14). -/
theorem flagMask_and_reserved (f : Flag) : flagMask f &&& reservedMask = 0#16 := by cases f <;> decide

/-- Reading a flag reads its bit. -/
theorem State.getFlag_eq (s : State) (f : Flag) : s.getFlag f = s.flags.getLsbD (flagBit f) := by
  have key : s.flags &&& flagMask f = if s.flags.getLsbD (flagBit f) then flagMask f else 0#16 := by
    apply BitVec.eq_of_getLsbD_eq
    intro i hi
    rw [BitVec.getLsbD_and, getLsbD_flagMask]
    by_cases e : i = flagBit f
    · subst e
      split <;> simp_all [getLsbD_flagMask]
    · split <;> simp [getLsbD_flagMask, e]
  simp only [State.getFlag, key]
  split
  · next h => rw [h]; cases f <;> decide
  · next h => rw [Bool.not_eq_true] at h; rw [h]; rfl

end Sys2Proof.Machine
end

