-- ==== Sys2Proof/Laws/Host.lean ====
section
/-! SUPPORT. What the host's port and the operations of a session can answer, said once
(spec/70_reset_and_hazards.md R150, R157). -/

namespace Sys2Proof.Machine

/-! ### The port -/

theorem State.hostRaise_running {s : State} (k : FaultKind) (h : s.run = .running) : s.hostRaise k = s.raise k := by
  simp [State.hostRaise, h]

theorem State.hostRaise_ended {s : State} (k : FaultKind) (h : s.run ≠ .running) : s.hostRaise k = s := by
  cases hr : s.run with
  | running => exact absurd hr h
  | halted => simp [State.hostRaise, hr]
  | faulted j => simp [State.hostRaise, hr]

theorem State.hostRaise_cases (s : State) (k : FaultKind) :
    (s.run = .running ∧ s.hostRaise k = s.raise k) ∨ (s.run ≠ .running ∧ s.hostRaise k = s) := by
  by_cases h : s.run = .running
  · exact .inl ⟨h, s.hostRaise_running k h⟩
  · exact .inr ⟨h, s.hostRaise_ended k h⟩

@[simp] theorem State.length_rawView (s : State) : s.rawView.length = Config.cap := by simp [State.rawView]

/-- Indexing the view of a machine is reading its memory: "the same guard" (R33, C2). -/
theorem viewAt_rawView (s : State) (a : Nat) : viewAt s.rawView a = s.memRead a := by
  rcases s.memRead_cases a with ⟨h, e⟩ | ⟨h, e⟩
  · simp [e, viewAt, State.rawView, h]
  · simp [e, viewAt, State.rawView, h]

/-- A read of the host leaves the machine as it was or raises the fault in it. -/
theorem State.hostAnswer_fst (s : State) (x : Except FaultKind Byte) :
    (s.hostAnswer x).1 = s ∨ ∃ k, (s.hostAnswer x).1 = s.hostRaise k := by
  cases x with
  | ok b => exact .inl rfl
  | error k => exact .inr ⟨k, rfl⟩

theorem State.hostWrite_of_lt (s : State) {a : Nat} (v : Byte) (h : a < Config.cap) :
    s.hostWrite a v = { s with mem := Memory.set s.mem a v } := by simp [State.hostWrite, s.memWrite_of_lt v h]

theorem State.hostWrite_of_ge (s : State) {a : Nat} (v : Byte) (h : Config.cap ≤ a) :
    s.hostWrite a v = s.hostRaise .outOfBounds := by simp [State.hostWrite, s.memWrite_of_ge v h]

/-! ### The session -/

theorem Session.engineRuns_iff (h : Session) :
    h.engineRuns = true ↔ h.started = true ∧ h.machine.run = .running := by simp [Session.engineRuns]

theorem Session.engineRuns_false (h : Session) :
    h.engineRuns = false ↔ h.started = false ∨ h.machine.run ≠ .running := by
  rw [← Bool.not_eq_true, h.engineRuns_iff, not_and_or, Bool.not_eq_true]

theorem Session.access_running {α : Type} {h : Session} (f : State → State × α) (e : h.engineRuns = true) :
    h.access f = .refused .hostDuringRun := by simp [Session.access, e]

theorem Session.access_idle {α : Type} {h : Session} (f : State → State × α) (e : h.engineRuns = false) :
    h.access f = .next ({ h with machine := (f h.machine).1 }, (f h.machine).2) := by simp [Session.access, e]

end Sys2Proof.Machine
end

