-- ==== Sys2Proof/Laws/Loader.lean ====
section
/-! SUPPORT. What storing bytes through the guard can answer, said once (spec/70_reset_and_hazards.md R152, R154). -/

namespace Sys2Proof.Machine

theorem State.load_running {c : Config} {s : State} (h : s.run = .running) (rs : List Record) :
    s.load c rs = State.loadRecords c rs s := by simp [State.load, h]

theorem State.run_of_load {c : Config} {s t : State} {rs : List Record} (h : s.load c rs = .next t) : s.run = .running := by
  cases hr : s.run with
  | running => rfl
  | halted => simp [State.load, hr] at h
  | faulted k => simp [State.load, hr] at h

/-- Every record's encoding begins with its opcode byte. -/
theorem Record.encode_ne_nil {c : Config} {r : Record} {bs : List Byte} (h : r.encode c = some bs) : bs ≠ [] := by
  rintro rfl
  simp [Record.encode] at h

/-- Bytes that fit are all written, and no other byte changes. -/
theorem State.storeBytes_of_fits (bs : List Byte) (a : Nat) (s : State) (h : a + bs.length ≤ Config.cap) :
    ∃ m, State.storeBytes a bs s = .ok { s with mem := m } ∧
      (∀ (k : Nat) (v : Byte), bs[k]? = some v → Memory.get m (a + k) = v) ∧
      (∀ b, b < a ∨ a + bs.length ≤ b → Memory.get m b = Memory.get s.mem b) ∧
      (Memory.wf s.mem = true → Memory.wf m = true) := by
  induction bs generalizing a s with
  | nil => exact ⟨s.mem, rfl, by simp, by simp, id⟩
  | cons b bs ih =>
    simp only [List.length_cons] at h
    obtain ⟨m, hm, hin, hout, hwf⟩ := ih (a + 1) { s with mem := Memory.set s.mem a b } (by omega)
    refine ⟨m, ?_, ?_, ?_, fun w => hwf (Memory.wf_set b w (by omega))⟩
    · rw [State.storeBytes, s.memWrite_of_lt b (by omega)]
      exact hm
    · intro k v hk
      cases k with
      | zero =>
        simp only [List.getElem?_cons_zero, Option.some.injEq] at hk
        rw [Nat.add_zero, hout a (by omega), hk, Memory.get_set_self]
      | succ k =>
        have := hin k v (by simpa using hk)
        rwa [show a + 1 + k = a + (k + 1) by omega] at this
    · intro c hc
      simp only [List.length_cons] at hc
      rw [hout c (by omega)]
      exact Memory.get_set_of_ne _ _ (by omega)

/-- Bytes that do not fit: those before the failing one are written, and the fault is `OutOfBounds`. -/
theorem State.storeBytes_of_beyond (bs : List Byte) (a : Nat) (s : State) (h : Config.cap < a + bs.length)
    (hne : bs ≠ []) :
    ∃ m, State.storeBytes a bs s = .error (.outOfBounds, { s with mem := m }) ∧
      (∀ (k : Nat) (v : Byte), bs[k]? = some v → a + k < Config.cap → Memory.get m (a + k) = v) ∧
      (∀ b, b < a → Memory.get m b = Memory.get s.mem b) ∧
      (Memory.wf s.mem = true → Memory.wf m = true) := by
  induction bs generalizing a s with
  | nil => exact absurd rfl hne
  | cons b bs ih =>
    simp only [List.length_cons] at h
    by_cases ha : a < Config.cap
    · have hbs : bs ≠ [] := by
        rintro rfl
        simp only [List.length_nil] at h
        omega
      obtain ⟨m, hm, hin, hout, hwf⟩ := ih (a + 1) { s with mem := Memory.set s.mem a b } (by omega) hbs
      refine ⟨m, ?_, ?_, ?_, fun w => hwf (Memory.wf_set b w ha)⟩
      · rw [State.storeBytes, s.memWrite_of_lt b ha]
        exact hm
      · intro k v hk hlt
        cases k with
        | zero =>
          simp only [List.getElem?_cons_zero, Option.some.injEq] at hk
          rw [Nat.add_zero, hout a (by omega), hk, Memory.get_set_self]
        | succ k =>
          have := hin k v (by simpa using hk) (by omega)
          rwa [show a + 1 + k = a + (k + 1) by omega] at this
      · intro c hc
        rw [hout c (by omega)]
        exact Memory.get_set_of_ne _ _ (by omega)
    · refine ⟨s.mem, ?_, ?_, fun _ _ => rfl, id⟩
      · rw [State.storeBytes, s.memWrite_of_ge b (by omega)]
      · intros
        omega

/-! ### The loop over records, one record at a time -/

theorem State.loadRecords_fits {c : Config} {s : State} {r : Record} {bs : List Byte} (rs : List Record)
    (he : r.encode c = some bs) (h : s.cursor + bs.length ≤ Config.cap) :
    ∃ m, State.loadRecords c (r :: rs) s =
        State.loadRecords c rs { s with mem := m, cursor := s.cursor + bs.length } ∧
      (∀ (k : Nat) (v : Byte), bs[k]? = some v → Memory.get m (s.cursor + k) = v) ∧
      (∀ b, b < s.cursor ∨ s.cursor + bs.length ≤ b → Memory.get m b = Memory.get s.mem b) ∧
      (Memory.wf s.mem = true → Memory.wf m = true) := by
  obtain ⟨m, hm, hrest⟩ := State.storeBytes_of_fits bs s.cursor s h
  exact ⟨m, by simp [State.loadRecords, he, hm], hrest⟩

theorem State.loadRecords_beyond {c : Config} {s : State} {r : Record} {bs : List Byte} (rs : List Record)
    (he : r.encode c = some bs) (h : Config.cap < s.cursor + bs.length) :
    ∃ m, State.loadRecords c (r :: rs) s = .next (State.raise { s with mem := m } .outOfBounds) ∧
      (∀ (k : Nat) (v : Byte), bs[k]? = some v → s.cursor + k < Config.cap →
        Memory.get m (s.cursor + k) = v) ∧
      (∀ b, b < s.cursor → Memory.get m b = Memory.get s.mem b) ∧
      (Memory.wf s.mem = true → Memory.wf m = true) := by
  obtain ⟨m, hm, hrest⟩ := State.storeBytes_of_beyond bs s.cursor s h (Record.encode_ne_nil he)
  exact ⟨m, by simp [State.loadRecords, he, hm], hrest⟩

end Sys2Proof.Machine
end

