-- ==== Sys2Proof/Laws/PerInstr.lean ====
section
/-! SUPPORT. Two facts about every instruction as syntax, one lemma per constructor. -/

namespace Sys2Proof.Laws

/-- The record of an instruction is well formed and is read back as the instruction (spec/30_encoding.md R57). -/
def RecordForm.Statement (i : Instr) : Prop := i.wf = true ∧ i.record.instr = i

/-- Under every opcode map the encoding of an instruction is as long as its size, begins with its opcode byte, and is its
record's encoding (spec/30_encoding.md R50, R51, R58). -/
def EncodedSize.Statement (i : Instr) : Prop :=
  ∀ c : Config, (encode c i).length = i.size ∧ (encode c i).head? = some (c.opc i.opcode) ∧
    i.record.encode c = some (encode c i)

theorem RecordForm.nop : RecordForm.Statement .nop := ⟨rfl, rfl⟩
theorem RecordForm.hlt : RecordForm.Statement .hlt := ⟨rfl, rfl⟩
theorem RecordForm.movAx (v : Word) : RecordForm.Statement (.movAx v) := ⟨rfl, rfl⟩
theorem RecordForm.movBx (v : Word) : RecordForm.Statement (.movBx v) := ⟨rfl, rfl⟩
theorem RecordForm.movCx (v : Word) : RecordForm.Statement (.movCx v) := ⟨rfl, rfl⟩
theorem RecordForm.movDx (v : Word) : RecordForm.Statement (.movDx v) := ⟨rfl, rfl⟩
theorem RecordForm.movSp (v : Word) : RecordForm.Statement (.movSp v) := ⟨rfl, rfl⟩
theorem RecordForm.ste : RecordForm.Statement .ste := ⟨rfl, rfl⟩
theorem RecordForm.cle : RecordForm.Statement .cle := ⟨rfl, rfl⟩
theorem RecordForm.stg : RecordForm.Statement .stg := ⟨rfl, rfl⟩
theorem RecordForm.clg : RecordForm.Statement .clg := ⟨rfl, rfl⟩
theorem RecordForm.sth : RecordForm.Statement .sth := ⟨rfl, rfl⟩
theorem RecordForm.clh : RecordForm.Statement .clh := ⟨rfl, rfl⟩
theorem RecordForm.stl : RecordForm.Statement .stl := ⟨rfl, rfl⟩
theorem RecordForm.cll : RecordForm.Statement .cll := ⟨rfl, rfl⟩
theorem RecordForm.push (v : Word) : RecordForm.Statement (.push v) := ⟨rfl, rfl⟩
theorem RecordForm.pop (v : Word) : RecordForm.Statement (.pop v) := ⟨rfl, rfl⟩
theorem RecordForm.add : RecordForm.Statement .add := ⟨rfl, rfl⟩
theorem RecordForm.sub : RecordForm.Statement .sub := ⟨rfl, rfl⟩
theorem RecordForm.mul : RecordForm.Statement .mul := ⟨rfl, rfl⟩
theorem RecordForm.div : RecordForm.Statement .div := ⟨rfl, rfl⟩

theorem EncodedSize.nop : EncodedSize.Statement .nop := fun _ => ⟨rfl, rfl, rfl⟩
theorem EncodedSize.hlt : EncodedSize.Statement .hlt := fun _ => ⟨rfl, rfl, rfl⟩
theorem EncodedSize.movAx (v : Word) : EncodedSize.Statement (.movAx v) := fun _ => ⟨rfl, rfl, rfl⟩
theorem EncodedSize.movBx (v : Word) : EncodedSize.Statement (.movBx v) := fun _ => ⟨rfl, rfl, rfl⟩
theorem EncodedSize.movCx (v : Word) : EncodedSize.Statement (.movCx v) := fun _ => ⟨rfl, rfl, rfl⟩
theorem EncodedSize.movDx (v : Word) : EncodedSize.Statement (.movDx v) := fun _ => ⟨rfl, rfl, rfl⟩
theorem EncodedSize.movSp (v : Word) : EncodedSize.Statement (.movSp v) := fun _ => ⟨rfl, rfl, rfl⟩
theorem EncodedSize.ste : EncodedSize.Statement .ste := fun _ => ⟨rfl, rfl, rfl⟩
theorem EncodedSize.cle : EncodedSize.Statement .cle := fun _ => ⟨rfl, rfl, rfl⟩
theorem EncodedSize.stg : EncodedSize.Statement .stg := fun _ => ⟨rfl, rfl, rfl⟩
theorem EncodedSize.clg : EncodedSize.Statement .clg := fun _ => ⟨rfl, rfl, rfl⟩
theorem EncodedSize.sth : EncodedSize.Statement .sth := fun _ => ⟨rfl, rfl, rfl⟩
theorem EncodedSize.clh : EncodedSize.Statement .clh := fun _ => ⟨rfl, rfl, rfl⟩
theorem EncodedSize.stl : EncodedSize.Statement .stl := fun _ => ⟨rfl, rfl, rfl⟩
theorem EncodedSize.cll : EncodedSize.Statement .cll := fun _ => ⟨rfl, rfl, rfl⟩
theorem EncodedSize.push (v : Word) : EncodedSize.Statement (.push v) := fun _ => ⟨rfl, rfl, rfl⟩
theorem EncodedSize.pop (v : Word) : EncodedSize.Statement (.pop v) := fun _ => ⟨rfl, rfl, rfl⟩
theorem EncodedSize.add : EncodedSize.Statement .add := fun _ => ⟨rfl, rfl, rfl⟩
theorem EncodedSize.sub : EncodedSize.Statement .sub := fun _ => ⟨rfl, rfl, rfl⟩
theorem EncodedSize.mul : EncodedSize.Statement .mul := fun _ => ⟨rfl, rfl, rfl⟩
theorem EncodedSize.div : EncodedSize.Statement .div := fun _ => ⟨rfl, rfl, rfl⟩

end Sys2Proof.Laws
end

