-- ==== Sys2Proof/Laws/Step.lean ====
section
/-! SUPPORT. What the fetch can find and what a step can do, said once. -/

namespace Sys2Proof.Machine

theorem State.ip_lt (s : State) : s.ip.toNat < Config.cap := s.ip.isLt

/-! ### The fetch (R70, R71) -/

theorem State.fetch_illegal {c : Config} {s : State} (h : opcodeOf c (Memory.get s.mem s.ip.toNat) = none) :
    s.fetch c = .error .illegalInstruction := by
  simp [State.fetch, State.fetchBytes, s.memRead_of_lt s.ip_lt, sizeOf?, h, decode, decodeRecord, faultOfDecode]

theorem State.fetch_one {c : Config} {s : State} {op : Opcode} (h : opcodeOf c (Memory.get s.mem s.ip.toNat) = some op)
    (hf : op.format = .f1) : s.fetch c = .ok (op.instr 0#16) := by
  simp [State.fetch, State.fetchBytes, s.memRead_of_lt s.ip_lt, sizeOf?, h, hf, Format.size, State.readBytes,
    decode, decodeRecord, takeOperands, Record.instr]

theorem State.fetch_three {c : Config} {s : State} {op : Opcode}
    (h : opcodeOf c (Memory.get s.mem s.ip.toNat) = some op)
    (hf : op.format = .f3) (hlt : s.ip.toNat + 2 < Config.cap) :
    s.fetch c = .ok (op.instr
      (wordOfBytes (Memory.get s.mem (s.ip.toNat + 1)) (Memory.get s.mem (s.ip.toNat + 2)))) := by
  have hb := s.readBytes_of_le (a := s.ip.toNat + 1) (n := 2) (by omega)
  simp [State.fetch, State.fetchBytes, s.memRead_of_lt s.ip_lt, sizeOf?, h, hf, Format.size, hb, decode,
    decodeRecord, takeOperands, Record.instr, List.range_succ]

theorem State.fetch_beyond {c : Config} {s : State} {op : Opcode}
    (h : opcodeOf c (Memory.get s.mem s.ip.toNat) = some op)
    (hf : op.format = .f3) (hge : Config.cap ≤ s.ip.toNat + 2) : s.fetch c = .error .outOfBounds := by
  have hlt := s.ip_lt
  have hb := s.readBytes_of_gt (a := s.ip.toNat + 1) (n := 2) (by omega) (by omega)
  simp [State.fetch, State.fetchBytes, s.memRead_of_lt s.ip_lt, sizeOf?, h, hf, Format.size, hb]

/-- Everything the fetch can answer. -/
inductive FetchResult (c : Config) (s : State) : Except FaultKind Instr → Prop where
  | illegal (h : opcodeOf c (Memory.get s.mem s.ip.toNat) = none) : FetchResult c s (.error .illegalInstruction)
  | beyond {op : Opcode} (h : opcodeOf c (Memory.get s.mem s.ip.toNat) = some op) (hf : op.format = .f3)
      (hge : Config.cap ≤ s.ip.toNat + 2) : FetchResult c s (.error .outOfBounds)
  | one {op : Opcode} (h : opcodeOf c (Memory.get s.mem s.ip.toNat) = some op) (hf : op.format = .f1) :
      FetchResult c s (.ok (op.instr 0#16))
  | three {op : Opcode} (h : opcodeOf c (Memory.get s.mem s.ip.toNat) = some op) (hf : op.format = .f3)
      (hlt : s.ip.toNat + 2 < Config.cap) :
      FetchResult c s (.ok (op.instr
        (wordOfBytes (Memory.get s.mem (s.ip.toNat + 1)) (Memory.get s.mem (s.ip.toNat + 2)))))

theorem State.fetch_result (c : Config) (s : State) : FetchResult c s (s.fetch c) := by
  cases h : opcodeOf c (Memory.get s.mem s.ip.toNat) with
  | none => rw [State.fetch_illegal h]; exact .illegal h
  | some op =>
    rcases op.format_cases with ⟨hf, -, -⟩ | ⟨hf, -, -⟩
    · rw [State.fetch_one h hf]; exact .one h hf
    · rcases Nat.lt_or_ge (s.ip.toNat + 2) Config.cap with hlt | hge
      · rw [State.fetch_three h hf hlt]; exact .three h hf hlt
      · rw [State.fetch_beyond h hf hge]; exact .beyond h hf hge

/-- The fetch depends on `ip` and memory alone. -/
theorem State.fetch_congr {c : Config} {s t : State} (hip : s.ip = t.ip) (hmem : s.mem = t.mem) :
    s.fetch c = t.fetch c := by
  cases h : opcodeOf c (Memory.get s.mem s.ip.toNat) with
  | none => rw [State.fetch_illegal h, State.fetch_illegal (by rwa [← hip, ← hmem])]
  | some op =>
    have h' : opcodeOf c (Memory.get t.mem t.ip.toNat) = some op := by rwa [← hip, ← hmem]
    rcases op.format_cases with ⟨hf, -, -⟩ | ⟨hf, -, -⟩
    · rw [State.fetch_one h hf, State.fetch_one h' hf]
    · rcases Nat.lt_or_ge (s.ip.toNat + 2) Config.cap with hlt | hge
      · rw [State.fetch_three h hf hlt, State.fetch_three h' hf (by rwa [← hip]), hip, hmem]
      · rw [State.fetch_beyond h hf hge, State.fetch_beyond h' hf (by rwa [← hip])]

/-! ### The step (R18, R70) -/

theorem step_halted {c : Config} {s : State} (h : s.run = .halted) : stepWith c s = .next s := by simp [stepWith, h]

theorem step_faulted {c : Config} {s : State} {k : FaultKind} (h : s.run = .faulted k) :
    stepWith c s = .fault (.faulted k) := by
  simp [stepWith, h]

theorem step_fetch_error {c : Config} {s : State} {k : FaultKind} (hr : s.run = .running) (h : s.fetch c = .error k) :
    stepWith c s = .next (s.raise k) := by
  simp [stepWith, hr, h]

theorem step_fetch_ok {c : Config} {s : State} {i : Instr} (hr : s.run = .running) (h : s.fetch c = .ok i) :
    stepWith c s = exec i (s.advance i.size) := by
  simp [stepWith, hr, h]

/-- Everything a step that answers a next state can have done. -/
inductive StepEffect (c : Config) (s : State) : State → Prop where
  | halted (hr : s.run = .halted) : StepEffect c s s
  | fetchFault {k : FaultKind} (hr : s.run = .running) (hf : s.fetch c = .error k) : StepEffect c s (s.raise k)
  | exec {i : Instr} {t : State} (hr : s.run = .running) (hf : s.fetch c = .ok i)
      (he : ExecEffect (s.advance i.size) i t) : StepEffect c s t

/-- The inversion of `step`. -/
theorem step_next {c : Config} {s t : State} (h : stepWith c s = .next t) : StepEffect c s t := by
  cases hr : s.run with
  | halted => rw [step_halted hr] at h; cases h; exact .halted hr
  | faulted k => rw [step_faulted hr] at h; cases h
  | running =>
    cases hf : s.fetch c with
    | error k => rw [step_fetch_error hr hf] at h; cases h; exact .fetchFault hr hf
    | ok i => rw [step_fetch_ok hr hf] at h; exact .exec hr hf (exec_next h)

end Sys2Proof.Machine
end

