-- ==== Sys2Proof/Laws/Run.lean ====
section
/-! SUPPORT. Small facts about the ends of a step and the run loop. -/

namespace Sys2Proof.Machine

theorem State.toNat_advance (s : State) (i : Instr) :
    (s.advance i.size).ip.toNat = (s.ip.toNat + i.size) % 65536 := by
  rcases i.size_cases with h | h <;> simp [h, BitVec.toNat_add]

/-- The halt report is a function of the registers it shows, `sp` and memory (R82). -/
theorem State.haltReport_congr {s t : State} (hreg : ∀ r, s.reg r = t.reg r) (hsp : s.sp = t.sp)
    (hmem : s.mem = t.mem) : s.haltReport = t.haltReport := by
  have ha := hreg .ax
  have hb := hreg .bx
  have hc := hreg .cx
  have hd := hreg .dx
  simp only [State.reg_ax, State.reg_bx, State.reg_cx, State.reg_dx] at ha hb hc hd
  simp [State.haltReport, *]

theorem runFor_zero (c : Config) (s : State) : runFor c 0 s = .next s := rfl

theorem runFor_succ_running {c : Config} {s t : State} (n : Nat) (hr : s.run = .running) (h : stepWith c s = .next t) :
    runFor c (n + 1) s = runFor c n t := by simp [runFor, hr, h]

theorem runFor_succ_halted {c : Config} {s : State} (n : Nat) (hr : s.run = .halted) : runFor c (n + 1) s = .next s := by
  simp [runFor, hr]

theorem runFor_succ_faulted {c : Config} {s : State} {k : FaultKind} (n : Nat) (hr : s.run = .faulted k) :
    runFor c (n + 1) s = .next s := by simp [runFor, hr]

end Sys2Proof.Machine
end

