-- ==== Sys2Proof/Tests/Slice0.lean ====
section
/-! SUPPORT. Tests, each with the spec's own example or vector as its source, and for every obligation with hypotheses
a witness that meets them. -/

namespace Sys2Proof.Machine

/-! ### Helpers -/

/-- The reset state with bytes placed at `ip`. -/
def stateAt (ip : Word) (bs : List Byte) : State :=
  { State.reset with ip := ip, mem := placeBytes ip.toNat bs [] }

/-- What an outcome's next state answers to a question; none where the outcome is no next state. -/
def seen {α : Type} (o : Host.Outcome State Fault Refusal) (f : State → α) : Option α :=
  match o with
  | .next s => some (f s)
  | .fault _ => none
  | .refused _ => none

/-! ### WellFormed: one ill-formed record for each check (30_encoding.md R57) -/

theorem test_wf_refuses_missing_operand : Record.wf { opcode := .movAx, a1 := none, a2 := none } = false := by decide
theorem test_wf_refuses_extra_operand : Record.wf { opcode := .nop, a1 := some 7#16, a2 := none } = false := by decide
theorem test_wf_refuses_second_operand : Record.wf { opcode := .push, a1 := some 0#16, a2 := some 0#16 } = false := by
  decide
theorem test_wf_accepts_bad_selector : Record.wf { opcode := .push, a1 := some 7#16, a2 := none } = true := by decide
theorem test_opcode_count : Opcode.all.length = Config.nopc ∧ Reg.all.length = Config.ngpr := by decide

/-! ### Decoding: every constructor's word written out from R50, R53 and the `encoding` column of the table -/

theorem test_decode_nop : decodeTableWord 8 0b00000001 = some .nop := by decide
theorem test_decode_hlt : decodeTableWord 8 0b00000010 = some .hlt := by decide
theorem test_decode_movAx : decodeTableWord 24 0b000000000001000100001000 = some (.movAx 0x0011#16) := by decide
theorem test_decode_movBx : decodeTableWord 24 0b000000000000100100001001 = some (.movBx 0x0009#16) := by decide
theorem test_decode_movCx : decodeTableWord 24 0b111111111111111100001010 = some (.movCx 0xFFFF#16) := by decide
theorem test_decode_movDx : decodeTableWord 24 0b000100100011010000001011 = some (.movDx 0x1234#16) := by decide
theorem test_decode_movSp : decodeTableWord 24 0b100000000000000000001100 = some (.movSp 0x8000#16) := by decide
theorem test_decode_ste : decodeTableWord 8 0b00010000 = some .ste := by decide
theorem test_decode_cle : decodeTableWord 8 0b00010001 = some .cle := by decide
theorem test_decode_stg : decodeTableWord 8 0b00010010 = some .stg := by decide
theorem test_decode_clg : decodeTableWord 8 0b00010011 = some .clg := by decide
theorem test_decode_sth : decodeTableWord 8 0b00010100 = some .sth := by decide
theorem test_decode_clh : decodeTableWord 8 0b00010101 = some .clh := by decide
theorem test_decode_stl : decodeTableWord 8 0b00010110 = some .stl := by decide
theorem test_decode_cll : decodeTableWord 8 0b00010111 = some .cll := by decide
theorem test_decode_push : decodeTableWord 24 0b000000010000000000011010 = some (.push 0x0100#16) := by decide
theorem test_decode_pop : decodeTableWord 24 0b000000000000001100011011 = some (.pop 0x0003#16) := by decide
theorem test_decode_add : decodeTableWord 8 0b00100000 = some .add := by decide
theorem test_decode_sub : decodeTableWord 8 0b00100001 = some .sub := by decide
theorem test_decode_mul : decodeTableWord 8 0b00100010 = some .mul := by decide
theorem test_decode_div : decodeTableWord 8 0b00100011 = some .div := by decide

/-- The 235 illegal bytes of R54, by its ranges, and the 21 legal ones. -/
theorem test_illegal_bytes : (List.range 256).filter (fun b => (opcodeOf .default (BitVec.ofNat 8 b)).isSome) =
    [0x01, 0x02, 0x08, 0x09, 0x0A, 0x0B, 0x0C, 0x10, 0x11, 0x12, 0x13, 0x14, 0x15, 0x16, 0x17, 0x1A, 0x1B,
     0x20, 0x21, 0x22, 0x23] := by decide

/-- V6: `0C FE FF` decodes to (MOV SP, 0xFFFE) and encodes to the same bytes. -/
theorem test_encode_movSp : encode .default (.movSp 0xFFFE#16) = [0x0C#8, 0xFE#8, 0xFF#8] := by decide

/-- R58: "a record `PUSH 0x0007` encodes to `1A 07 00`", and slots beyond the size are dropped. -/
theorem test_record_encode : Record.encode .default { opcode := .push, a1 := some 7#16, a2 := some 9#16 } =
    some [0x1A#8, 0x07#8, 0x00#8] ∧
    Record.encode .default { opcode := .nop, a1 := some 7#16, a2 := none } = some [0x01#8] ∧
    Record.encode .default { opcode := .movAx, a1 := none, a2 := none } = none := by decide

/-! ### Fetch, decode, advance (95_test_vectors.md 2.1) -/

theorem test_nop_wraps : seen (step (stateAt 0xFFFF#16 [0x01#8])) (fun t => (t.run, t.ip)) =
    some (.running, 0x0000#16) := by decide
theorem test_mov_fits_exactly : seen (step (stateAt 0xFFFD#16 [0x08#8, 0x34#8, 0x12#8])) (fun t => (t.ax, t.ip)) =
    some (0x1234#16, 0x0000#16) := by decide
theorem test_mov_operand_beyond_FFFE : seen (step (stateAt 0xFFFE#16 [0x08#8])) (fun t => (t.run, t.ip)) =
    some (.faulted .outOfBounds, 0xFFFE#16) := by decide
theorem test_mov_operand_beyond_FFFF : seen (step (stateAt 0xFFFF#16 [0x08#8])) (fun t => (t.run, t.ip)) =
    some (.faulted .outOfBounds, 0xFFFF#16) := by decide
theorem test_illegal_at_top : seen (step (stateAt 0xFFFF#16 [0x24#8])) (fun t => (t.run, t.ip)) =
    some (.faulted .illegalInstruction, 0xFFFF#16) := by decide
/-- V5, case a: nothing loaded, one step. -/
theorem test_reset_step : seen (step State.reset) (fun t => (t.run, t.ip)) =
    some (.faulted .illegalInstruction, 0x0000#16) := by decide
/-- The host's placing of a word runs it as the first instruction after reset. -/
theorem test_fetch_word : seen (step (State.reset.withFetchWord 24 0x12340B)) (fun t => (t.dx, t.ip)) =
    some (0x1234#16, 0x0003#16) := by decide

/-! ### The instructions, one step each -/

/-- R80's example. -/
theorem test_nop : seen (step (stateAt 0x0004#16 [0x01#8])) (fun t => (t.ip, t.ax, t.flags)) =
    some (0x0005#16, 0#16, 0#16) := by decide
/-- R81's example: the report has been emitted once. -/
theorem test_hlt : seen (step (stateAt 0x0006#16 [0x02#8])) (fun t => (t.run, t.ip, t.sink.length)) =
    some (.halted, 0x0007#16, 1) := by decide
/-- V2's dump: 30 zeros, then `CD AB`. -/
theorem test_hlt_dump : (State.haltReport { stateAt 0#16 [] with mem := [(0xFFFE, 0xCD#8), (0xFFFF, 0xAB#8)] }).dump =
    List.replicate 30 0x00#8 ++ [0xCD#8, 0xAB#8] := by decide
theorem test_movAx : seen (step (stateAt 0#16 [0x08#8, 0x11#8, 0x00#8])) (·.ax) = some 0x0011#16 := by decide
theorem test_movBx : seen (step (stateAt 3#16 [0x09#8, 0x09#8, 0x00#8])) (·.bx) = some 0x0009#16 := by decide
theorem test_movCx : seen (step (stateAt 0#16 [0x0A#8, 0xFF#8, 0xFF#8])) (·.cx) = some 0xFFFF#16 := by decide
theorem test_movDx : seen (step (stateAt 0#16 [0x0B#8, 0x34#8, 0x12#8])) (·.dx) = some 0x1234#16 := by decide
theorem test_movSp : seen (step (stateAt 0#16 [0x0C#8, 0xFE#8, 0xFF#8])) (fun t => (t.sp, t.run)) =
    some (0xFFFE#16, .running) := by decide

/-- R98's and section 2.4's rows. -/
theorem test_add_wraps : seen (exec .add { State.reset with ax := 0xFFFF#16, bx := 0x0001#16 }) (·.ax) =
    some 0x0000#16 := by decide
theorem test_sub_wraps : seen (exec .sub { State.reset with ax := 0x8000#16, bx := 0xFFFF#16 }) (·.ax) =
    some 0x8001#16 := by decide
theorem test_mul_low : seen (exec .mul { State.reset with ax := 0x1234#16, bx := 0x0010#16, dx := 7#16 })
    (fun t => (t.ax, t.dx)) = some (0x2340#16, 7#16) := by decide
theorem test_div_unsigned : seen (exec .div { State.reset with ax := 0xFFFF#16, bx := 0x0002#16 }) (·.ax) =
    some 0x7FFF#16 := by decide
theorem test_div_by_zero : seen (exec .div { State.reset with ax := 0x1234#16 }) (fun t => (t.run, t.ax)) =
    some (.faulted .divisionByZero, 0x1234#16) := by decide

/-- Section 2.5's rows. -/
theorem test_ste : seen (exec .ste { State.reset with flags := 0x0000#16 }) (·.flags) = some 0x0008#16 := by decide
theorem test_cle : seen (exec .cle { State.reset with flags := 0x000F#16 }) (·.flags) = some 0x0007#16 := by decide
theorem test_stg : seen (exec .stg { State.reset with flags := 0x0000#16 }) (·.flags) = some 0x0004#16 := by decide
theorem test_clg : seen (exec .clg { State.reset with flags := 0x000F#16 }) (·.flags) = some 0x000B#16 := by decide
theorem test_sth : seen (exec .sth { State.reset with flags := 0x0000#16 }) (·.flags) = some 0x0002#16 := by decide
theorem test_clh : seen (exec .clh { State.reset with flags := 0x000F#16 }) (·.flags) = some 0x000D#16 := by decide
theorem test_stl : seen (exec .stl { State.reset with flags := 0x0000#16 }) (·.flags) = some 0x0001#16 := by decide
theorem test_cll : seen (exec .cll { State.reset with flags := 0x000F#16 }) (·.flags) = some 0x000E#16 := by decide
theorem test_ste_idempotent : seen (exec .ste { State.reset with flags := 0x0008#16 }) (·.flags) =
    some 0x0008#16 := by decide

/-- Section 2.6: the lowest push that succeeds. -/
theorem test_push_lowest : seen (exec (.push 0#16) { State.reset with ax := 0xBEEF#16, sp := 2#16 })
    (fun t => (Memory.get t.mem 1, Memory.get t.mem 2, t.sp)) = some (0xEF#8, 0xBE#8, 0#16) := by decide
/-- Section 2.6: `PUSH #0x0100` at `sp` = 0: selector test first, the high byte counts. -/
theorem test_push_selector_first : seen (exec (.push 0x0100#16) { State.reset with sp := 0#16 }) (·.run) =
    some (.faulted .invalidOperand) := by decide
/-- Section 2.6: the highest pop that succeeds. -/
theorem test_pop_highest : seen (exec (.pop 3#16)
    { State.reset with sp := 0xFFFD#16, mem := [(0xFFFE, 0x34#8), (0xFFFF, 0x12#8)] }) (fun t => (t.dx, t.sp)) =
    some (0x1234#16, 0xFFFF#16) := by decide
/-- Section 2.6: a pop at 0xFFFE. -/
theorem test_pop_underflow : seen (exec (.pop 3#16) { State.reset with sp := 0xFFFE#16 }) (fun t => (t.run, t.sp)) =
    some (.faulted .stackUnderflow, 0xFFFE#16) := by decide

/-! ### Terminal states, memory and the host -/

theorem test_faulted_step : (match step { State.reset with run := .faulted .stackOverflow } with
    | .fault r => some r
    | .next _ => none
    | .refused _ => none) = some (.faulted .stackOverflow) := by decide
theorem test_halted_step : seen (step { State.reset with run := .halted }) id =
    some { State.reset with run := .halted } := by decide
/-- Writing what an unlisted address reads as removes the entry. -/
theorem test_memory_canonical : Memory.set (Memory.set (Memory.set [] 7 1#8) 3 2#8) 7 0#8 = [(3, 2#8)] := by decide
theorem test_reset_memory_wf : Memory.wf State.reset.mem = true := by decide
/-- Section 2.7: the load of V1's program, and a second load after it. -/
theorem test_load : seen (State.reset.load .default [⟨.movAx, some 0x0011#16, none⟩,
    ⟨.movBx, some 0x0009#16, none⟩,
    ⟨.add, none, none⟩, ⟨.hlt, none, none⟩]) (fun t => ((List.range 8).map (Memory.get t.mem), t.cursor)) =
    some ([0x08#8, 0x11#8, 0x00#8, 0x09#8, 0x09#8, 0x00#8, 0x20#8, 0x02#8], 8) := by decide
/-- Section 2.7: one byte written, then the fault; the cursor stays. -/
theorem test_load_beyond : seen (State.load .default { State.reset with cursor := 65535 }
    [⟨.movAx, some 0xAABB#16, none⟩])
    (fun t => (t.run, Memory.get t.mem 0xFFFF, t.cursor)) = some (.faulted .outOfBounds, 0x08#8, 65535) := by decide
/-! ### Witnesses: a concrete case that meets the hypotheses of each obligation, at the boundary where there is one -/

/-- EncodeOfDecodeIsTheBytes. -/
theorem witness_decoded_bytes : decode .default [0x1A#8, 0x03#8, 0x00#8, 0xFF#8] = .ok (.push 3#16, [0xFF#8]) := by decide

/-- DecodeRejectsExactly: each clause, both ways: 0x24 has no row, 0x23 has one; a move is cut short or whole. -/
theorem witness_rejections : decode .default [0x24#8] = .error (.illegalOpcode 0x24#8) ∧
    decode .default [0x08#8, 0x34#8] = .error .truncated ∧
    decode .default [0x08#8, 0x34#8, 0x12#8] = .ok (.movAx 0x1234#16, []) ∧
    decode .default [0x23#8] = .ok (.div, []) := by decide

/-- SizeFollowsFromTheOpcodeByte: one byte of each clause. -/
theorem witness_sizes : sizeOf? .default 0x23#8 = some 1 ∧ sizeOf? .default 0x1B#8 = some 3 ∧
    sizeOf? .default 0x00#8 = none := by decide

/-- RecordsEncodeBySize: an opcode of each format. -/
theorem witness_formats : Opcode.format .add = .f1 ∧ Opcode.format .pop = .f3 := by decide

/-- SelectorsNameTheFourRegisters: each register, and the first value out of range. -/
theorem witness_selectors : regOf 0#16 = some .ax ∧ regOf 1#16 = some .bx ∧ regOf 2#16 = some .cx ∧
    regOf 3#16 = some .dx ∧ regOf 4#16 = none := by decide

/-- ByteReadIsGuarded, ByteWriteChangesOneByte: the last address and the first beyond it. -/
theorem witness_guard : (0xFFFF < Config.cap ∧ State.reset.memRead 0xFFFF = .ok 0#8) ∧
    (Config.cap ≤ 0x10000 ∧ State.reset.memRead 0x10000 = .error .outOfBounds) ∧
    State.reset.memWrite 0x10000 1#8 = .error .outOfBounds ∧
    State.reset.memWrite 0xFFFF 1#8 = .ok { State.reset with mem := [(0xFFFF, 1#8)] } := by decide

/-- WordAccessIsTwoByteAccesses: the last address a word fits at, and the first it does not. -/
theorem witness_word_access : State.reset.memRead 0xFFFE = .ok 0#8 ∧ State.reset.memRead 0xFFFF = .ok 0#8 ∧
    0xFFFE + 1 < Config.cap ∧ Config.cap ≤ 0xFFFF + 1 ∧
    State.reset.memWrite16 0xFFFF 0x0102#16 = .error .outOfBounds := by decide

/-- StepRunsTheDecodedInstruction: a move that ends at the last byte of memory. -/
theorem witness_decoded_step :
    (stateAt 0xFFFD#16 [0x08#8, 0x34#8, 0x12#8]).run = .running ∧
    (stateAt 0xFFFD#16 [0x08#8, 0x34#8, 0x12#8]).readBytes 0xFFFD 3 = .ok [0x08#8, 0x34#8, 0x12#8] ∧
    decode .default [0x08#8, 0x34#8, 0x12#8] = .ok (.movAx 0x1234#16, []) := by decide

/-- IllegalOpcodeByteFaults: a byte with no row (`test_illegal_at_top` steps there) beside one with a row. -/
theorem witness_illegal : (stateAt 0xFFFF#16 [0x24#8]).run = .running ∧
    opcodeOf .default (Memory.get (stateAt 0xFFFF#16 [0x24#8]).mem 0xFFFF) = none ∧
    opcodeOf .default 0x23#8 = some .div := by decide

/-- OperandBeyondMemoryFaults: 0xFFFE faults (`test_mov_operand_beyond_FFFE`) and 0xFFFD does not. -/
theorem witness_beyond : (stateAt 0xFFFE#16 [0x08#8]).run = .running ∧
    Opcode.byte .movAx = Memory.get (stateAt 0xFFFE#16 [0x08#8]).mem 0xFFFE ∧ Opcode.format .movAx = .f3 ∧
    seen (step (stateAt 0xFFFD#16 [0x08#8])) (·.run) = some .running := by decide

/-- RunningMachineAlwaysSteps, InstructionPointerOnlyAdvances, CursorInfluencesNothing: a running machine whose step
runs an instruction, and one whose step takes a fetch fault. -/
theorem witness_running : State.reset.run = .running ∧ State.reset.fetch .default = .error .illegalInstruction ∧
    (stateAt 0#16 [0x02#8]).run = .running ∧ (stateAt 0#16 [0x02#8]).fetch .default = .ok .hlt ∧
    seen (step (stateAt 0#16 [0x02#8])) (·.cursor) = some 0 := by decide

/-- RunStateTransitions: a step of each kind. -/
theorem witness_transitions : seen (step (stateAt 0#16 [0x02#8])) (·.run) = some .halted ∧
    seen (step (stateAt 0#16 [0x01#8])) (·.run) = some .running ∧
    seen (step (stateAt 0#16 [0x23#8])) (·.run) = some (.faulted .divisionByZero) ∧
    State.run { State.reset with run := .halted } = .halted := by decide

/-- PushedByteIsFetchedNext: the low byte of AX, HLT, lands at `ip`; and the high byte does. -/
theorem witness_self_modifying :
    regOf 0#16 = some .ax ∧ Instr.size .hlt = 1 ∧
    (State.pushAddr { State.reset with ax := 0x0202#16, ip := 9#16, sp := 10#16 } = 9) ∧
    seen (exec (.push 0#16) { State.reset with ax := 0x0202#16, ip := 9#16, sp := 10#16 })
      (fun t => seen (step t) (·.run)) = some (some .halted) ∧
    seen (exec (.push 0#16) { State.reset with ax := 0x0201#16, ip := 10#16, sp := 10#16 })
      (fun t => seen (step t) (·.run)) = some (some .halted) := by decide

/-- NopOnlyAdvances, second clause, at the top of memory (`test_nop_wraps` steps there). -/
theorem witness_nop : (stateAt 0xFFFF#16 [0x01#8]).run = .running ∧
    Memory.get (stateAt 0xFFFF#16 [0x01#8]).mem 0xFFFF = 0x01#8 := by decide

/-- FlagPrimitivesForceOneBit: a flag that is set, one that is clear, and a bit of no flag. -/
theorem witness_flags : State.getFlag { State.reset with flags := 0x0008#16 } .equal = true ∧
    State.reset.getFlag .equal = false ∧ 15 ≠ flagBit .equal := by decide

/-- FlagsHaveEightWritersAndNoReader: a step of no flag opcode, and a step that stops. -/
theorem witness_flag_free_step : (stateAt 0#16 [0x20#8]).fetch .default = .ok .add ∧ flagWrite .add = none ∧
    seen (step (stateAt 0#16 [0x20#8])) (·.flags) = some 0#16 ∧
    seen (step { State.reset with run := .faulted .outOfBounds }) id = none := by decide

/-- DivTruncates: the least divisor. -/
theorem witness_div : State.bx { State.reset with bx := 1#16 } ≠ 0#16 := by decide

/-- DivByZeroFaults: BX is zero at reset. -/
theorem witness_div_by_zero : (stateAt 0xFFFF#16 [0x23#8]).run = .running ∧
    (stateAt 0xFFFF#16 [0x23#8]).fetch .default = .ok .div ∧ (stateAt 0xFFFF#16 [0x23#8]).bx = 0#16 := by decide

/-- PushStoresTheRegister, PushThenPopRestores: the least `sp`. -/
theorem witness_push : regOf 0#16 = some .ax ∧ regOf 3#16 = some .dx ∧
    2 ≤ (State.sp { State.reset with sp := 2#16 }).toNat := by decide

/-- PopLoadsTheRegister: the greatest `sp`. -/
theorem witness_pop : regOf 3#16 = some .dx ∧ (State.sp { State.reset with sp := 0xFFFD#16 }).toNat ≤ 0xFFFD := by
  decide

/-- PushWithNoRoomFaults: the greatest `sp` that has no room. -/
theorem witness_push_overflow :
    State.run { stateAt 0#16 [0x1A#8, 0#8, 0#8] with sp := 1#16 } = .running ∧
    State.fetch .default { stateAt 0#16 [0x1A#8, 0#8, 0#8] with sp := 1#16 } = .ok (.push 0#16) ∧
    regOf 0#16 = some .ax ∧ (State.sp { stateAt 0#16 [0x1A#8, 0#8, 0#8] with sp := 1#16 }).toNat < 2 := by decide

/-- FaultCausesAreExact: each fault and, beside it, the nearest accepted input. -/
theorem witness_causes :
    seen (exec .div State.reset) (·.run) = some (.faulted .divisionByZero) ∧
    seen (exec .div { State.reset with bx := 1#16 }) (·.run) = some .running ∧
    seen (exec (.push 4#16) { State.reset with sp := 1#16 }) (·.run) = some (.faulted .invalidOperand) ∧
    seen (exec (.pop 0xFFFF#16) State.reset) (·.run) = some (.faulted .invalidOperand) ∧
    seen (exec (.push 3#16) { State.reset with sp := 1#16 }) (·.run) = some (.faulted .stackOverflow) ∧
    seen (exec (.push 3#16) { State.reset with sp := 2#16 }) (·.run) = some .running ∧
    seen (exec (.pop 3#16) { State.reset with sp := 0xFFFE#16 }) (·.run) = some (.faulted .stackUnderflow) ∧
    seen (exec (.pop 3#16) { State.reset with sp := 0xFFFD#16 }) (·.run) = some .running := by decide

/-- FaultsArePrecise: a fetch fault and an execute fault, each from a running machine. -/
theorem witness_precise :
    seen (step State.reset) (fun t => (t.run, t.sink)) =
      some (.faulted .illegalInstruction, [.error .illegalInstruction]) ∧
    seen (step (stateAt 0#16 [0x23#8])) (fun t => (t.run, t.ip)) = some (.faulted .divisionByZero, 1#16) := by decide

/-- EachElementHasItsWriters: an instruction that changes each element. -/
theorem witness_writers :
    seen (exec (.push 0#16) { State.reset with ax := 1#16 }) (fun t => decide (t.mem ≠ [] ∧ t.sp ≠ 0xFFFF#16)) =
      some true ∧
    seen (exec .ste State.reset) (fun t => decide (t.flags ≠ 0#16)) = some true ∧
    seen (exec .add { State.reset with bx := 1#16 }) (fun t => decide (t.ax ≠ 0#16)) = some true ∧
    seen (exec (.movBx 1#16) State.reset) (fun t => decide (t.bx ≠ 0#16)) = some true ∧
    seen (exec (.movCx 1#16) State.reset) (fun t => decide (t.cx ≠ 0#16)) = some true ∧
    seen (exec (.movDx 1#16) State.reset) (fun t => decide (t.dx ≠ 0#16)) = some true ∧
    seen (exec .hlt State.reset) (fun t => decide (t.run ≠ .running)) = some true := by decide

/-- ResetMeetsTheInvariant: a canonical memory with an entry at each end. -/
theorem witness_canonical_memory : Memory.wf [(0, 0x02#8), (0xFFFF, 0xFF#8)] = true := by decide

/-- EveryStepKeepsTheInvariant, LoadKeepsTheInvariant: a state that meets the invariant, its step, and a load. -/
theorem witness_invariant : (stateAt 0#16 [0x1A#8, 0#8, 0#8]).Inv ∧
    (∃ t, step (stateAt 0#16 [0x1A#8, 0#8, 0#8]) = .next t) ∧
    (∃ t, State.load .default (stateAt 0#16 [0x1A#8, 0#8, 0#8]) [⟨.hlt, none, none⟩] = .next t) :=
  ⟨⟨by decide, by decide, by decide, rfl⟩, ⟨_, rfl⟩, ⟨_, rfl⟩⟩

/-- RunLoopStopsOnlyAtTheEnd: an ended machine, and a run to its end. -/
theorem witness_run : State.run { State.reset with run := .halted } ≠ .running ∧
    seen (runFor .default 1 (stateAt 0#16 [0x02#8])) (·.run) = some .halted := by decide

/-- A memory every byte of which is listed with one value reads as that value. -/
theorem get_of_filled (v : Byte) (l : List Nat) {a : Nat} (h : a ∈ l) :
    Memory.get (l.map (fun x => (x, v))) a = v := by
  induction l with
  | nil => cases h
  | cons b l ih =>
    by_cases hb : b = a
    · simp [Memory.get, hb]
    · have ha : a ∈ l := by
        rcases List.mem_cons.1 h with e | e
        · exact absurd e.symm hb
        · exact e
      simp [Memory.get, hb, ih ha]

/-- NopFilledMemoryNeverStops: memory filled with `NOP`. -/
theorem witness_nop_filled :
    State.run { State.reset with mem := (List.range Config.cap).map (fun x => (x, Opcode.byte .nop)) } = .running ∧
    ∀ a, a < Config.cap →
      Memory.get ((List.range Config.cap).map (fun x => (x, Opcode.byte .nop))) a = Opcode.byte .nop :=
  ⟨rfl, fun _ h => get_of_filled _ _ (List.mem_range.2 h)⟩

/-- LoadSerialisesAtTheCursor: a one-byte and a three-byte record that fill memory to its last byte. -/
theorem witness_load :
    State.run { State.reset with cursor := 65532 } = .running ∧
    [Record.mk .nop none none, Record.mk .push (some 9#16) none].map (Record.encode .default) =
      [[0x01#8], [0x1A#8, 0x09#8, 0x00#8]].map some ∧
    65532 + [[0x01#8], [0x1A#8, 0x09#8, 0x00#8]].flatten.length ≤ Config.cap := by decide

/-- LoadBeyondMemoryFaults: a three-byte record with two bytes of room. -/
theorem witness_load_beyond : State.run { State.reset with cursor := 65534 } = .running ∧
    Record.encode .default ⟨.movAx, some 0xAABB#16, none⟩ = some [0x08#8, 0xBB#8, 0xAA#8] ∧
    Config.cap < 65534 + [0x08#8, 0xBB#8, 0xAA#8].length := by decide

/-- SecondLoadContinuesTheFirst: a first load that leaves a running machine. -/
theorem witness_second_load : seen (State.reset.load .default [⟨.nop, none, none⟩]) (fun t => (t.run, t.cursor)) =
    some (.running, 1) := by decide

/-- HostPortIsGuarded: the last address, and the first beyond it on a running and on an ended machine. -/
theorem witness_host_port : (State.hostWrite State.reset 0xFFFF 5#8).mem = [(0xFFFF, 5#8)] ∧
    (State.hostRead State.reset 0x10000).1.run = .faulted .outOfBounds ∧
    (State.hostWrite { State.reset with run := .halted } 0x10000 5#8).run = .halted := by decide

/-- R33: indexing the view at the last address and at the first beyond it. -/
theorem test_view_index : viewAt State.reset.rawView 0xFFFF = .ok 0#8 ∧
    viewAt State.reset.rawView 0x10000 = .error .outOfBounds ∧
    (State.hostViewAt State.reset State.reset.rawView 0x10000).1.run = .faulted .outOfBounds := by
  have h := viewAt_rawView State.reset
  refine ⟨h 0xFFFF, h 0x10000, ?_⟩
  rw [State.hostViewAt, h]
  rfl

/-- HostActsOnlyWhenAllowed: before `run()`, during the run, and after its end. -/
theorem witness_session :
    (Session.mk State.reset false).engineRuns = false ∧
    (Session.mk State.reset true).engineRuns = true ∧
    (Session.mk { State.reset with run := .halted } true).engineRuns = false := by decide

/-- A run seen before its end refuses a load; one seen after its end lets the host read. -/
theorem test_session_run :
    (∃ h, Session.run .default 1 ⟨stateAt 0#16 [0x01#8], false⟩ = .next h ∧
      h.load .default [] = .refused .hostDuringRun) ∧
    (∃ h, Session.run .default 9 ⟨stateAt 0#16 [0x02#8], false⟩ = .next h ∧ h.getRun = .next (h, .halted)) :=
  ⟨⟨_, rfl, rfl⟩, _, rfl, rfl⟩

/-- HostOperationsKeepTheInvariant: `witness_invariant`'s state runs a round. -/
theorem witness_run_invariant : (stateAt 0#16 [0x1A#8, 0#8, 0#8]).run = .running ∧
    ∃ t, runFor .default 1 (stateAt 0#16 [0x1A#8, 0#8, 0#8]) = .next t := ⟨rfl, _, rfl⟩

/-- A configuration other than the default: the opcode bytes one higher. -/
theorem witness_other_config : ∃ c : Config, c.opc .nop = 0x02#8 ∧ opcodeOf c 0x01#8 = none :=
  ⟨⟨fun op => op.byte + 1#8, fun op op' h => Config.default.injective op op' (by simpa using h)⟩, rfl, rfl⟩

end Sys2Proof.Machine
end

section
/-! The proofs about the machine's state (spec/10_state.md): the frame of every instruction and step, the fields no
step reads, the flag primitives, and the invariant. The lemmas hold under every opcode map. -/

namespace Sys2Proof.Machine

/-! ### The flags word: what an instruction makes of it (R14, R15, R16) -/

/-- The flags word after an instruction, as a function of the word before (R100): the flag family forces its bit, every
other instruction leaves the word. -/
def flagsAfter (i : Instr) (w : Word) : Word :=
  match flagWrite i with
  | none => w
  | some (f, true) => w ||| flagMask f
  | some (f, false) => w &&& ~~~(flagMask f)

theorem flagsAfter_of_none {i : Instr} (w : Word) (h : flagWrite i = none) : flagsAfter i w = w := by
  simp [flagsAfter, h]

theorem flagsAfter_of_set {i : Instr} {f : Flag} (w : Word) (h : flagWrite i = some (f, true)) :
    flagsAfter i w = w ||| flagMask f := by simp [flagsAfter, h]

theorem flagsAfter_of_clear {i : Instr} {f : Flag} (w : Word) (h : flagWrite i = some (f, false)) :
    flagsAfter i w = w &&& ~~~(flagMask f) := by simp [flagsAfter, h]

theorem exec_of_flagWrite_set {i : Instr} {f : Flag} (s : State) (h : flagWrite i = some (f, true)) :
    exec i s = .next (s.setFlag f) := by
  cases i <;> cases h <;> rfl

theorem exec_of_flagWrite_clear {i : Instr} {f : Flag} (s : State) (h : flagWrite i = some (f, false)) :
    exec i s = .next (s.clearFlag f) := by
  cases i <;> cases h <;> rfl

/-- Forcing a flag leaves the reserved bits 15:4 at 0 (R14). -/
theorem flagsAfter_reserved (i : Instr) {w : Word} (h : w &&& reservedMask = 0#16) :
    flagsAfter i w &&& reservedMask = 0#16 := by
  rcases hw : flagWrite i with _ | ⟨f, _ | _⟩
  · rwa [flagsAfter_of_none w hw]
  · rw [flagsAfter_of_clear w hw, BitVec.and_assoc, BitVec.and_comm (~~~_), ← BitVec.and_assoc, h, BitVec.zero_and]
  · rw [flagsAfter_of_set w hw, BitVec.and_or_distrib_right, h, flagMask_and_reserved, BitVec.or_zero]

theorem State.getFlag_setFlag (s : State) (f : Flag) : (s.setFlag f).getFlag f = true := by
  simp [State.getFlag_eq, getLsbD_flagMask]

theorem State.getFlag_clearFlag (s : State) (f : Flag) : (s.clearFlag f).getFlag f = false := by
  simp [State.getFlag_eq, getLsbD_flagMask]

theorem State.getLsbD_setFlag_of_ne (s : State) {f : Flag} {b : Nat} (h : b ≠ flagBit f) :
    (s.setFlag f).flags.getLsbD b = s.flags.getLsbD b := by
  simp [getLsbD_flagMask, h]

theorem State.getLsbD_clearFlag_of_ne (s : State) {f : Flag} {b : Nat} (h : b ≠ flagBit f) :
    (s.clearFlag f).flags.getLsbD b = s.flags.getLsbD b := by
  rw [State.clearFlag_flags, BitVec.getLsbD_and, BitVec.getLsbD_not, getLsbD_flagMask]
  by_cases hb : b < 16
  · simp [h, hb]
  · simp [BitVec.getLsbD_of_ge _ _ (Nat.not_lt.1 hb)]

/-- Two flags words are the same when they agree on one flag and on every other bit. -/
theorem State.flags_eq_of_bits {s t : State} {f : Flag} (hget : s.getFlag f = t.getFlag f)
    (hother : ∀ b, b ≠ flagBit f → s.flags.getLsbD b = t.flags.getLsbD b) : s.flags = t.flags := by
  apply BitVec.eq_of_getLsbD_eq
  intro b _
  by_cases hb : b = flagBit f
  · rw [hb, ← State.getFlag_eq, ← State.getFlag_eq, hget]
  · exact hother b hb

theorem State.setFlag_of_getFlag {s : State} {f : Flag} (h : s.getFlag f = true) : s.setFlag f = s :=
  congrArg (fun w => { s with flags := w })
    (State.flags_eq_of_bits ((s.getFlag_setFlag f).trans h.symm) fun _ => s.getLsbD_setFlag_of_ne)

theorem State.clearFlag_of_getFlag {s : State} {f : Flag} (h : s.getFlag f = false) : s.clearFlag f = s :=
  congrArg (fun w => { s with flags := w })
    (State.flags_eq_of_bits ((s.getFlag_clearFlag f).trans h.symm) fun _ => s.getLsbD_clearFlag_of_ne)

/-! ### The frame of an instruction: the column "written by" of R10 -/

namespace ExecEffect

variable {s t : State} {i : Instr}

/-- `exec` answers the state an effect describes, so the effects are exactly what `exec` does (`exec_next`). -/
theorem exec_eq (h : ExecEffect s i t) : exec i s = .next t := by
  cases h with
  | setFlag hw => exact exec_of_flagWrite_set s hw
  | clearFlag hw => exact exec_of_flagWrite_clear s hw
  | pushInvalid h => exact exec_push_invalid s h
  | pushOverflow h ho => exact exec_push_overflow h ho
  | push h ho => exact exec_push_ok h ho
  | popInvalid h => exact exec_pop_invalid s h
  | popUnderflow h hu => exact exec_pop_underflow h hu
  | pop h hu => exact exec_pop_ok h hu
  | divZero h => exact exec_div_zero h
  | div h => exact exec_div_nonzero h
  | _ => rfl

theorem ip_eq (h : ExecEffect s i t) : t.ip = s.ip := by cases h <;> simp

theorem cursor_eq (h : ExecEffect s i t) : t.cursor = s.cursor := by cases h <;> simp

theorem flags_eq (h : ExecEffect s i t) : t.flags = flagsAfter i s.flags := by
  cases h with
  | setFlag hw => rw [flagsAfter_of_set _ hw, State.setFlag_flags]
  | clearFlag hw => rw [flagsAfter_of_clear _ hw, State.clearFlag_flags]
  | _ => simp [flagsAfter, flagWrite]

/-! In each of the lemmas named for a writer, the effects of the other instructions leave the element, which contradicts
`hne`. -/

theorem mem_writer (h : ExecEffect s i t) (hne : t.mem ≠ s.mem) : i.opcode = .push := by
  cases h <;> simp [Instr.opcode] at hne ⊢

theorem sp_writer (h : ExecEffect s i t) (hne : t.sp ≠ s.sp) : i.opcode ∈ [.movSp, .push, .pop] := by
  cases h <;> simp [Instr.opcode] at hne ⊢

theorem flags_writer (h : ExecEffect s i t) (hne : t.flags ≠ s.flags) :
    i.opcode ∈ [.ste, .cle, .stg, .clg, .sth, .clh, .stl, .cll] := by
  have hw : flagWrite i ≠ none := fun hn => hne (by rw [h.flags_eq, flagsAfter_of_none _ hn])
  clear h
  cases i <;> simp [flagWrite, Instr.opcode] at hw ⊢

theorem ax_writer (h : ExecEffect s i t) (hne : t.ax ≠ s.ax) :
    i.opcode ∈ [.movAx, .pop, .add, .sub, .mul, .div] := by
  cases h <;> simp [Instr.opcode] at hne ⊢

theorem bx_writer (h : ExecEffect s i t) (hne : t.bx ≠ s.bx) : i.opcode ∈ [.movBx, .pop] := by
  cases h <;> simp [Instr.opcode] at hne ⊢

theorem cx_writer (h : ExecEffect s i t) (hne : t.cx ≠ s.cx) : i.opcode ∈ [.movCx, .pop] := by
  cases h <;> simp [Instr.opcode] at hne ⊢

theorem dx_writer (h : ExecEffect s i t) (hne : t.dx ≠ s.dx) : i.opcode ∈ [.movDx, .pop] := by
  cases h <;> simp [Instr.opcode] at hne ⊢

theorem run_writer (h : ExecEffect s i t) (hne : t.run ≠ s.run) : i.opcode ∈ [.hlt, .push, .pop, .div] := by
  cases h <;> simp [Instr.opcode] at hne ⊢

/-- How an instruction ends: HLT halts, and any other leaves the run state and the reports or takes a fault. -/
theorem run_cases (h : ExecEffect s i t) :
    (i = .hlt ∧ t = s.halt) ∨
    (i ≠ .hlt ∧ t.run = s.run ∧ t.sink = s.sink) ∨
    (i ≠ .hlt ∧ ∃ k, t = s.raise k) := by
  have hne : ∀ p, flagWrite i = some p → i ≠ .hlt := by rintro p hw rfl; cases hw
  cases h with
  | hlt => exact .inl ⟨rfl, rfl⟩
  | setFlag hw => exact .inr (.inl ⟨hne _ hw, rfl, rfl⟩)
  | clearFlag hw => exact .inr (.inl ⟨hne _ hw, rfl, rfl⟩)
  | pushInvalid | pushOverflow | popInvalid | popUnderflow | divZero => exact .inr (.inr ⟨nofun, _, rfl⟩)
  | _ => exact .inr (.inl ⟨nofun, by simp, by simp⟩)

/-- Memory stays canonical: only a push writes it, inside the address space. -/
theorem memory_wf (h : ExecEffect s i t) (hm : Memory.wf s.mem = true) : Memory.wf t.mem = true := by
  cases h with
  | push _ ho =>
    have hsp := s.sp.isLt
    exact Memory.wf_set16 _ hm (by simp only [State.pushAddr, Config.cap]; omega)
  | _ => simpa using hm

end ExecEffect

/-! ### The fields no step reads: the flags (R16) and the load cursor (R19) -/

/-- The state with other values in the two fields that no step reads. -/
def State.withUnread (s : State) (w : Word) (n : Nat) : State :=
  { s with flags := w, cursor := n }

theorem State.withUnread_setReg (s : State) (w : Word) (n : Nat) (r : Reg) (v : Word) :
    (s.withUnread w n).setReg r v = (s.setReg r v).withUnread w n := by cases r <;> rfl

/-- An instruction does the same whatever the unread fields hold, and makes its own of the flags. -/
theorem ExecEffect.withUnread {s t : State} {i : Instr} (w : Word) (n : Nat) (h : ExecEffect s i t) :
    ExecEffect (s.withUnread w n) i (t.withUnread (flagsAfter i w) n) := by
  cases h with
  | setFlag hw => rw [flagsAfter_of_set w hw]; exact .setFlag hw
  | clearFlag hw => rw [flagsAfter_of_clear w hw]; exact .clearFlag hw
  | pushInvalid h => exact .pushInvalid h
  | pushOverflow h ho => exact .pushOverflow h ho
  | push h ho => exact .push h ho
  | popInvalid h => exact .popInvalid h
  | popUnderflow h hu => exact .popUnderflow h hu
  | pop h hu =>
    have he := ExecEffect.pop (s := s.withUnread w n) h hu
    rw [State.withUnread_setReg] at he
    exact he
  | divZero h => exact .divZero h
  | div h => exact .div h
  | _ => constructor

/-- With other values in the unread fields a step leads to the same next state but for them, and the
flags after are those of the first run where the flags before are. -/
theorem stepWith_withUnread {c : Config} {s t : State} (w : Word) (n : Nat) (h : stepWith c s = .next t) :
    ∃ v, stepWith c (s.withUnread w n) = .next (t.withUnread v n) ∧ (w = s.flags → v = t.flags) := by
  have hfetch : (s.withUnread w n).fetch c = s.fetch c := State.fetch_congr rfl rfl
  have he := step_next h
  clear h
  cases he with
  | halted hr => exact ⟨w, step_halted hr, id⟩
  | fetchFault hr hf => exact ⟨w, step_fetch_error hr (hfetch.trans hf), id⟩
  | @exec i _ hr hf he =>
    refine ⟨flagsAfter i w, ?_, ?_⟩
    · exact (step_fetch_ok (s := s.withUnread w n) hr (hfetch.trans hf)).trans (he.withUnread w n).exec_eq
    · rintro rfl
      exact he.flags_eq.symm

/-- Only a machine that has faulted answers a fault, and it answers its own (R18). -/
theorem stepWith_fault {c : Config} {s : State} {r : Fault} (h : stepWith c s = .fault r) :
    ∃ k, s.run = .faulted k ∧ r = .faulted k := by
  cases hr : s.run with
  | halted => rw [step_halted hr] at h; cases h
  | faulted k => rw [step_faulted hr] at h; cases h; exact ⟨k, rfl, rfl⟩
  | running =>
    cases hf : s.fetch c with
    | error k => rw [step_fetch_error hr hf] at h; cases h
    | ok i =>
      obtain ⟨t, ht, -⟩ := exec_effect i (s.advance i.size)
      rw [step_fetch_ok hr hf, ht] at h
      cases h

/-! ### The step's frame and the invariant -/

namespace StepEffect

variable {c : Config} {s t : State}

theorem cursor_eq (h : StepEffect c s t) : t.cursor = s.cursor := by
  cases h with
  | halted | fetchFault => rfl
  | exec _ _ he => exact he.cursor_eq

theorem flags_eq (h : StepEffect c s t) (hno : ∀ i, s.fetch c = .ok i → flagWrite i = none) : t.flags = s.flags := by
  cases h with
  | halted | fetchFault => rfl
  | exec _ hf he => exact he.flags_eq.trans (flagsAfter_of_none _ (hno _ hf))

theorem ip_cases (h : StepEffect c s t) (hrun : s.run = .running) :
    (∃ k, s.fetch c = .error k ∧ t.ip = s.ip) ∨
    (∃ i, s.fetch c = .ok i ∧ t.ip.toNat = (s.ip.toNat + i.size) % 65536) := by
  cases h with
  | halted hr => rw [hrun] at hr; cases hr
  | fetchFault _ hf => exact .inl ⟨_, hf, rfl⟩
  | exec _ hf he => exact .inr ⟨_, hf, by rw [he.ip_eq, s.toNat_advance]⟩

/-- How the step of a running machine ends (R17). -/
theorem run_cases (h : StepEffect c s t) (hrun : s.run = .running) :
    (s.fetch c = .ok .hlt ∧ t.run = .halted) ∨
    (s.fetch c ≠ .ok .hlt ∧ t.run = .running) ∨
    (s.fetch c ≠ .ok .hlt ∧ ∃ k, t.run = .faulted k ∧ t.sink = s.sink ++ [.error k]) := by
  cases h with
  | halted hr => rw [hrun] at hr; cases hr
  | @fetchFault k _ hf => exact .inr (.inr ⟨by simp [hf], k, rfl, rfl⟩)
  | @exec i _ _ hf he =>
    rcases he.run_cases with ⟨rfl, rfl⟩ | ⟨hi, hr, -⟩ | ⟨hi, k, rfl⟩
    · exact .inl ⟨hf, rfl⟩
    · exact .inr (.inl ⟨by simpa [hf] using hi, hr.trans hrun⟩)
    · exact .inr (.inr ⟨by simpa [hf] using hi, k, rfl, rfl⟩)

end StepEffect

namespace State.Inv

variable {s t : State}

theorem sink_of_running (hi : s.Inv) (hrun : s.run = .running) : s.sink = [] := by
  have h := hi.reports
  rwa [State.reportsAgree, hrun] at h

theorem advance (hi : s.Inv) (n : Nat) : (s.advance n).Inv :=
  ⟨hi.memory, hi.reserved, hi.cursor, hi.reports⟩

/-- A fault taken by a running machine emits its one report. -/
theorem raise (hi : s.Inv) (hrun : s.run = .running) (k : FaultKind) : (s.raise k).Inv where
  memory := hi.memory
  reserved := hi.reserved
  cursor := hi.cursor
  reports := by simp [State.reportsAgree, hi.sink_of_running hrun]

/-- HLT in a running machine emits its one report, with the content of the state it leaves. -/
theorem halt (hi : s.Inv) (hrun : s.run = .running) : s.halt.Inv where
  memory := hi.memory
  reserved := hi.reserved
  cursor := hi.cursor
  reports := by
    have hrep : s.halt.haltReport = s.haltReport := rfl
    simp [State.reportsAgree, hi.sink_of_running hrun, hrep]

/-- Every instruction keeps the invariant on a running machine. -/
theorem of_execEffect {i : Instr} (hi : s.Inv) (hrun : s.run = .running) (h : ExecEffect s i t) : t.Inv := by
  rcases h.run_cases with ⟨-, rfl⟩ | ⟨-, hr, hsink⟩ | ⟨-, k, rfl⟩
  · exact hi.halt hrun
  · exact {
      memory := h.memory_wf hi.memory
      reserved := by rw [h.flags_eq]; exact flagsAfter_reserved i hi.reserved
      cursor := by rw [h.cursor_eq]; exact hi.cursor
      reports := by rw [State.reportsAgree, hr, hrun]; exact hsink.trans (hi.sink_of_running hrun) }
  · exact hi.raise hrun k

/-- Every step keeps the invariant, under every opcode map. -/
theorem of_stepWith {c : Config} (hi : s.Inv) (h : stepWith c s = .next t) : t.Inv := by
  have he := step_next h
  clear h
  cases he with
  | halted => exact hi
  | fetchFault hr => exact hi.raise hr _
  | exec hr _ he => exact (hi.advance _).of_execEffect hr he

end State.Inv

/-! ### The obligations -/

/-- Settles O23: the flags after a step are `flagsAfter` of those before, and no other field depends on them. -/
theorem flagsHaveEightWritersAndNoReader : Obligations.FlagsHaveEightWritersAndNoReader := by
  refine ⟨fun s t h hno => (step_next h).flags_eq hno, fun s t w h => ?_, fun s w r h => ?_⟩
  · obtain ⟨v, hv, -⟩ := stepWith_withUnread w s.cursor h
    have hc : t.cursor = s.cursor := (step_next h).cursor_eq
    exact ⟨t.withUnread v s.cursor, hv, by rw [← hc]; rfl⟩
  · obtain ⟨k, hr, rfl⟩ := stepWith_fault h
    exact step_faulted hr

/-- Settles O39: a step is idle, a fetch fault, or an instruction, and each keeps the invariant. -/
theorem everyStepKeepsTheInvariant : Obligations.EveryStepKeepsTheInvariant :=
  fun _ _ hi h => hi.of_stepWith h

/-- Settles O15: by the effects of `exec` and of `step`. -/
theorem instructionPointerOnlyAdvances : Obligations.InstructionPointerOnlyAdvances :=
  ⟨fun _ _ _ h => (exec_next h).ip_eq, fun _ _ hr h => (step_next h).ip_cases hr⟩

/-- Settles O16: by the three ways a running machine's step can end. -/
theorem runStateTransitions : Obligations.RunStateTransitions := by
  refine ⟨fun s t hrun h => ?_, fun _ => step_halted, fun _ _ => step_faulted⟩
  rcases (step_next h).run_cases hrun with ⟨hf, hr⟩ | ⟨hf, hr⟩ | ⟨hf, k, hr, hsink⟩
  · exact ⟨by simp [hf, hr], fun hne => absurd hf hne⟩
  · exact ⟨by simp [hf, hr], fun _ => .inl hr⟩
  · exact ⟨by simp [hf, hr], fun _ => .inr ⟨k, hr, hsink⟩⟩

/-- Settles O21: bit by bit. -/
theorem flagPrimitivesForceOneBit : Obligations.FlagPrimitivesForceOneBit := fun s f =>
  ⟨bne_iff_ne, rfl, rfl, s.getFlag_setFlag f, s.getFlag_clearFlag f,
    fun _ hb => ⟨s.getLsbD_setFlag_of_ne hb, s.getLsbD_clearFlag_of_ne hb⟩,
    State.setFlag_of_getFlag, State.clearFlag_of_getFlag⟩

/-- Settles O35: one lemma per element, each by the effects of `exec`. -/
theorem eachElementHasItsWriters : Obligations.EachElementHasItsWriters := by
  intro i s t h
  have he := exec_next h
  exact ⟨he.ip_eq, he.cursor_eq, he.mem_writer, he.sp_writer, he.flags_writer, he.ax_writer, he.bx_writer,
    he.cx_writer, he.dx_writer, he.run_writer⟩

/-- Settles O36: the cursor is one of the two fields no step reads; here the flags keep their value. -/
theorem cursorInfluencesNothing : Obligations.CursorInfluencesNothing := by
  intro s t n h
  obtain ⟨v, hv, hflags⟩ := stepWith_withUnread s.flags n h
  rw [hflags rfl] at hv
  exact ⟨(step_next h).cursor_eq, hv⟩

/-- Settles O37: reset is a record of these values. -/
theorem resetValues : Obligations.ResetValues :=
  ⟨fun _ _ _ _ _ => rfl, rfl, fun _ => rfl⟩

/-- Settles O38: every clause but memory's is about a value reset fixes. -/
theorem resetMeetsTheInvariant : Obligations.ResetMeetsTheInvariant := fun _ _ _ _ _ hm =>
  { memory := hm, reserved := BitVec.zero_and, cursor := Nat.zero_le _, reports := rfl }

end Sys2Proof.Machine
end

section
/-! The proofs about memory (spec/20_memory.md): the guarded byte and word accesses, and the fetch of a byte that has
just been written. The lemmas about the step hold under every opcode map. -/

namespace Sys2Proof

/-! ### One-byte instructions (R51, R57) -/

/-- A one-byte instruction reads no operand, so its opcode alone stands for it. -/
theorem Instr.opcode_of_size_one {i : Instr} (h : i.size = 1) :
    i.opcode.format = .f1 ∧ i.opcode.instr 0#16 = i := by
  rcases i.opcode.format_cases with ⟨hformat, -, hoperand⟩ | ⟨hformat, -, -⟩
  · have hnone : i.operand = none := by simpa using hoperand (i.operand.getD 0#16)
    exact ⟨hformat, by simpa [hnone] using i.instr_opcode_operand⟩
  · simp [Instr.size, hformat, Format.size] at h

end Sys2Proof

namespace Sys2Proof.Machine

/-! ### The guarded accesses (R31, R32, R36) -/

/-- A guarded read depends on the byte at its address alone. -/
theorem State.memRead_congr {s t : State} {a : Nat} (h : Memory.get t.mem a = Memory.get s.mem a) :
    t.memRead a = s.memRead a := by
  simp [State.memRead, h]

theorem State.memRead16_of_ok {s : State} {a : Nat} {lo hi : Byte} (hlo : s.memRead a = .ok lo)
    (hhi : s.memRead (a + 1) = .ok hi) : s.memRead16 a = .ok (wordOfBytes lo hi) := by
  simp [State.memRead16, hlo, hhi]

/-- A word read faults as soon as its higher address is out of range, also where the lower one is the last byte. -/
theorem State.memRead16_of_ge (s : State) {a : Nat} (h : Config.cap ≤ a + 1) :
    s.memRead16 a = .error .outOfBounds := by
  rcases s.memRead_cases a with ⟨-, hlo⟩ | ⟨-, hlo⟩
  · simp [State.memRead16, hlo, s.memRead_of_ge h]
  · simp [State.memRead16, hlo]

theorem State.memWrite16_of_ge (s : State) {a : Nat} (v : Word) (h : Config.cap ≤ a + 1) :
    s.memWrite16 a v = .error .outOfBounds := by
  simp [State.memWrite16, Nat.not_lt.2 h]

/-! ### The fetch of a one-byte instruction (R44, R70) -/

/-- A running machine whose `ip` points at the byte of a one-byte instruction runs that instruction. -/
theorem stepWith_of_opcode_byte {c : Config} {s : State} {i : Instr} (hrun : s.run = .running) (hi : i.size = 1)
    (hbyte : Memory.get s.mem s.ip.toNat = c.opc i.opcode) : stepWith c s = exec i (s.advance 1) := by
  obtain ⟨hformat, hinstr⟩ := Instr.opcode_of_size_one hi
  have hop : opcodeOf c (Memory.get s.mem s.ip.toNat) = some i.opcode := opcodeOf_eq_some.2 hbyte.symm
  have hfetch : s.fetch c = .ok i := (State.fetch_one hop hformat).trans (congrArg _ hinstr)
  rw [step_fetch_ok hrun hfetch, hi]

/-! ### What a push leaves (R110, R111) -/

theorem State.pushAddr_add_one {s : State} (h : 2 ≤ s.sp.toNat) : s.pushAddr + 1 = s.sp.toNat := by
  simp only [State.pushAddr]
  omega

/-- A push leaves the run state and `ip`, and stores the low byte at `sp - 1` and the high byte at `sp`. -/
theorem exec_push_stores {s t : State} {sel : Word} {r : Reg} (hr : regOf sel = some r) (hsp : 2 ≤ s.sp.toNat)
    (h : exec (.push sel) s = .next t) :
    t.run = s.run ∧ t.ip = s.ip ∧ Memory.get t.mem s.pushAddr = lowByte (s.reg r) ∧
      Memory.get t.mem s.sp.toNat = highByte (s.reg r) := by
  rw [exec_push_ok hr hsp] at h
  cases h
  refine ⟨rfl, rfl, Memory.get_set16_low _ _ _, ?_⟩
  rw [← State.pushAddr_add_one hsp]
  exact Memory.get_set16_high _ _ _

/-! ### The obligations -/

/-- Settles O8: the two cases of the guard. -/
theorem byteReadIsGuarded : Obligations.ByteReadIsGuarded :=
  fun s _ => ⟨s.memRead_of_ge, s.memRead_of_lt⟩

/-- Settles O9: by the laws of a read after a write. -/
theorem byteWriteChangesOneByte : Obligations.ByteWriteChangesOneByte := by
  intro s a v
  refine ⟨s.memWrite_of_ge v, fun ha => ⟨_, s.memWrite_of_lt v ha, ?_, fun b hb => ?_, rfl⟩⟩
  · rw [State.memRead_of_lt _ ha, Memory.get_set_self]
  · exact State.memRead_congr (Memory.get_set_of_ne _ _ hb)

/-- Settles O10: an access is in range exactly when its higher address is; then each byte of the write is read back, and
the two make the word. -/
theorem wordAccessIsTwoByteAccesses : Obligations.WordAccessIsTwoByteAccesses := by
  intro s a v
  refine ⟨fun lo hi => State.memRead16_of_ok, fun hge => ?_, fun hlt => ?_⟩
  · have hge' : Config.cap ≤ a + 1 := hge.elim (fun h => by omega) id
    exact ⟨s.memRead16_of_ge hge', s.memWrite16_of_ge v hge'⟩
  · refine ⟨_, s.memWrite16_of_lt v hlt, ?_, ?_, ?_, fun b h0 h1 => ?_, rfl⟩
    · rw [State.memRead_of_lt _ (Nat.lt_of_succ_lt hlt), Memory.get_set16_low, lowByte]
    · rw [State.memRead_of_lt _ hlt, Memory.get_set16_high, highByte]
    · rw [State.memRead16_of_lt _ hlt, Memory.get_set16_low, Memory.get_set16_high, wordOfBytes_low_high]
    · exact State.memRead_congr (Memory.get_set16_of_ne _ _ h0 h1)

/-- Settles O17: the push leaves `ip`, so the next step fetches the byte it stored there. -/
theorem pushedByteIsFetchedNext : Obligations.PushedByteIsFetchedNext := by
  intro s t sel r i hrun hr hsp h hi
  obtain ⟨htrun, htip, hlow, hhigh⟩ := exec_push_stores hr hsp h
  have hnext (hbyte : Memory.get t.mem s.ip.toNat = i.opcode.byte) : step t = exec i (t.advance 1) :=
    stepWith_of_opcode_byte (htrun.trans hrun) hi (by rwa [htip])
  refine ⟨fun hip hbyte => hnext ?_, fun hip hbyte => hnext ?_⟩
  · rw [hip]
    exact hlow.trans hbyte
  · rw [hip]
    exact hhigh.trans hbyte

end Sys2Proof.Machine
end

section
/-! The proofs about the encoding (spec/30_encoding.md): what the decoder answers, what the encoder writes, and the
selectors. The lemmas hold under every opcode map. -/

namespace Sys2Proof

variable {c : Config} {op : Opcode}

/-! ### The opcode map and the formats (R4, R51) -/

theorem Config.opc_inj {op' : Opcode} : c.opc op = c.opc op' ↔ op = op' :=
  ⟨c.injective op op', congrArg c.opc⟩

/-- A one-byte opcode is one instruction, whatever stands for the operand it does not have. -/
theorem Opcode.instr_eq_of_f1 (hf : op.format = .f1) (v : Word) : op.instr v = op.instr 0#16 := by
  obtain ⟨-, -, hnone⟩ | ⟨hf3, -⟩ := op.format_cases
  · simpa [hnone v] using (op.instr v).instr_opcode_operand.symm
  · simp [hf] at hf3

theorem Opcode.operand_instr_of_f3 (hf : op.format = .f3) (v : Word) : (op.instr v).operand = some v := by
  obtain ⟨hf1, -⟩ | ⟨-, -, hsome⟩ := op.format_cases
  · simp [hf] at hf1
  · exact hsome v

theorem Opcode.size_format (op : Opcode) : op.format.size = if op.hasOperand then 3 else 1 := by
  obtain ⟨hf, ho, -⟩ | ⟨hf, ho, -⟩ := op.format_cases <;> simp [hf, ho, Format.size]

theorem sizeOf?_eq_none {b : Byte} : sizeOf? c b = none ↔ ∀ op : Opcode, c.opc op ≠ b := by
  rw [sizeOf?, Option.map_eq_none_iff, opcodeOf_eq_none]

/-! ### What the encoder writes (R58) -/

theorem encode_instr_of_f1 (hf : op.format = .f1) (v : Word) : encode c (op.instr v) = [c.opc op] := by
  simp [encode, hf, operandBytes]

theorem encode_instr_of_f3 (hf : op.format = .f3) (v : Word) :
    encode c (op.instr v) = [c.opc op, lowByte v, highByte v] := by
  simp [encode, hf, operandBytes, Opcode.operand_instr_of_f3 hf]

theorem Record.encode_of_f1 (hf : op.format = .f1) (a1 a2 : Option Word) :
    Record.encode c { opcode := op, a1 := a1, a2 := a2 } = some [c.opc op] := by
  simp [Record.encode, Record.encodable, hf, operandBytes]

theorem Record.encode_of_f3 (hf : op.format = .f3) (v : Word) (a2 : Option Word) :
    Record.encode c { opcode := op, a1 := some v, a2 := a2 } = some [c.opc op, lowByte v, highByte v] := by
  simp [Record.encode, Record.encodable, hf, operandBytes]

/-! ### What the decoder answers (R52, R54) -/

theorem decode_illegal {b : Byte} (h : ∀ op : Opcode, c.opc op ≠ b) (rest : List Byte) :
    decode c (b :: rest) = .error (.illegalOpcode b) := by
  simp [decode, decodeRecord, opcodeOf_eq_none.2 h]

theorem decode_of_f1 (hf : op.format = .f1) (rest : List Byte) :
    decode c (c.opc op :: rest) = .ok (op.instr 0#16, rest) := by
  simp [decode, decodeRecord, opcodeOf_byte, hf, takeOperands, Record.instr]

theorem decode_of_f3 (hf : op.format = .f3) (lo hi : Byte) (rest : List Byte) :
    decode c (c.opc op :: lo :: hi :: rest) = .ok (op.instr (wordOfBytes lo hi), rest) := by
  simp [decode, decodeRecord, opcodeOf_byte, hf, takeOperands, Record.instr]

theorem takeOperands_f3_of_short {bs : List Byte} (h : bs.length < 2) : takeOperands .f3 bs = none := by
  match bs, h with
  | [], _ => rfl
  | [_], _ => rfl
  | _ :: _ :: _, h => simp at h

theorem decode_truncated (hf : op.format = .f3) {rest : List Byte} (h : rest.length < 2) :
    decode c (c.opc op :: rest) = .error .truncated := by
  simp [decode, decodeRecord, opcodeOf_byte, hf, takeOperands_f3_of_short h]

/-- The answers of the decoder, by the bytes it is given (`decode_result`). -/
inductive DecodeResult (c : Config) : List Byte → Except DecodeError (Instr × List Byte) → Prop
  | empty : DecodeResult c [] (.error .truncated)
  | illegal {b : Byte} {rest : List Byte} (h : ∀ op : Opcode, c.opc op ≠ b) :
      DecodeResult c (b :: rest) (.error (.illegalOpcode b))
  | truncated {op : Opcode} {rest : List Byte} (hf : op.format = .f3) (h : rest.length < 2) :
      DecodeResult c (c.opc op :: rest) (.error .truncated)
  | one {op : Opcode} {rest : List Byte} (hf : op.format = .f1) :
      DecodeResult c (c.opc op :: rest) (.ok (op.instr 0#16, rest))
  | three {op : Opcode} {lo hi : Byte} {rest : List Byte} (hf : op.format = .f3) :
      DecodeResult c (c.opc op :: lo :: hi :: rest) (.ok (op.instr (wordOfBytes lo hi), rest))

/-- Every byte sequence has one of these answers: by its first byte's row in the opcode map, and for a three-byte opcode
by whether two more bytes follow. -/
theorem decode_result (c : Config) (bs : List Byte) : DecodeResult c bs (decode c bs) := by
  cases bs with
  | nil => exact .empty
  | cons b rest =>
    cases hb : opcodeOf c b with
    | none =>
      have h := opcodeOf_eq_none.1 hb
      rw [decode_illegal h]
      exact .illegal h
    | some op =>
      obtain rfl := byte_of_opcodeOf hb
      obtain ⟨hf, -⟩ | ⟨hf, -⟩ := op.format_cases
      · rw [decode_of_f1 hf]
        exact .one hf
      · match rest with
        | [] | [_] =>
          rw [decode_truncated hf (by simp)]
          exact .truncated hf (by simp)
        | lo :: hi :: rest =>
          rw [decode_of_f3 hf]
          exact .three hf

/-! ### The two round trips (R58) -/

theorem decode_encode (c : Config) (i : Instr) (rest : List Byte) : decode c (encode c i ++ rest) = .ok (i, rest) := by
  obtain ⟨op, v, rfl⟩ : ∃ op v, i = Opcode.instr op v := ⟨_, _, i.instr_opcode_operand.symm⟩
  obtain ⟨hf, -⟩ | ⟨hf, -⟩ := op.format_cases
  · rw [encode_instr_of_f1 hf, List.singleton_append, decode_of_f1 hf, Opcode.instr_eq_of_f1 hf v]
  · rw [encode_instr_of_f3 hf, List.cons_append, List.cons_append, List.singleton_append, decode_of_f3 hf,
      wordOfBytes_low_high]

theorem DecodeResult.eq_encode_append {bs rest : List Byte} {i : Instr} (h : DecodeResult c bs (.ok (i, rest))) :
    bs = encode c i ++ rest := by
  cases h with
  | one hf => rw [encode_instr_of_f1 hf, List.singleton_append]
  | three hf => simp [encode_instr_of_f3 hf, lowByte_wordOfBytes, highByte_wordOfBytes]

/-! ### Rejection (R54) -/

namespace DecodeResult

variable {b : Byte} {rest : List Byte} {r : Except DecodeError (Instr × List Byte)}

theorem illegal_iff (h : DecodeResult c (b :: rest) r) :
    r = .error (.illegalOpcode b) ↔ ∀ op : Opcode, c.opc op ≠ b := by
  cases h with
  | illegal hb => exact iff_of_true rfl hb
  | truncated | one | three => exact iff_of_false nofun fun hb => hb _ rfl

theorem truncated_iff (h : DecodeResult c (b :: rest) r) :
    r = .error .truncated ↔ ∃ op : Opcode, c.opc op = b ∧ rest.length + 1 < op.format.size := by
  cases h with
  | illegal hb => exact iff_of_false nofun fun ⟨op, hop, _⟩ => hb op hop
  | truncated hf hr => exact iff_of_true rfl ⟨_, rfl, by simp only [hf, Format.size]; omega⟩
  | one hf => simp [Config.opc_inj, hf, Format.size]
  | three hf => simp [Config.opc_inj, hf, Format.size]

theorem error_cases {e : DecodeError} (h : DecodeResult c (b :: rest) (.error e)) :
    e = .illegalOpcode b ∨ e = .truncated := by
  cases h with
  | illegal => exact .inl rfl
  | truncated => exact .inr rfl

end DecodeResult

end Sys2Proof

namespace Sys2Proof.Machine

/-! ### Selectors (R56) -/

/-- A selector names a register when the two numbers agree as 16-bit values. -/
theorem regOf_eq_some {sel : Word} {r : Reg} : regOf sel = some r ↔ sel.toNat = (selectorOf r).toNat := by
  rw [BitVec.toNat_inj]
  exact ⟨fun h => (selectorOf_of_regOf h).symm, fun h => h ▸ regOf_selectorOf r⟩

/-! ### The obligations -/

/-- Settles O2: each format is decoded from the bytes it is encoded to. -/
theorem decodeOfEncodeIsTheInstruction : Obligations.DecodeOfEncodeIsTheInstruction := decode_encode

/-- Settles O3: by the two answers of the decoder that are an instruction. -/
theorem encodeOfDecodeIsTheBytes : Obligations.EncodeOfDecodeIsTheBytes := fun c bs _ _ h =>
  DecodeResult.eq_encode_append (h ▸ decode_result c bs)

/-- Settles O4: by the answers of the decoder; the opcode of a byte is one, so its size is the one compared. -/
theorem decodeRejectsExactly : Obligations.DecodeRejectsExactly := by
  intro c b rest
  have h := decode_result c (b :: rest)
  exact ⟨h.illegal_iff, h.truncated_iff, fun e he => DecodeResult.error_cases (he ▸ h)⟩

/-- Settles O1: each of the words is the encoding of its instruction, so it decodes to it. -/
theorem specWordsDecode : Obligations.SpecWordsDecode :=
  ⟨decode_encode .default .nop [], decode_encode .default .hlt [],
    decode_encode .default (.movAx 0xABCD#16) [], decode_encode .default (.movSp 0x8000#16) [],
    decode_encode .default .stl [], decode_encode .default (.push 3#16) [],
    decode_encode .default (.pop 0xFFFF#16) [], decode_encode .default .div []⟩

/-- Settles O5: a byte's opcode is the one the map gives it to, and its format has the size. -/
theorem sizeFollowsFromTheOpcodeByte : Obligations.SizeFollowsFromTheOpcodeByte :=
  ⟨Config.default.injective, fun c op => by rw [sizeOf?_byte, op.size_format], fun _ _ => sizeOf?_eq_none⟩

/-- Settles O6: one equation for each format. -/
theorem recordsEncodeBySize : Obligations.RecordsEncodeBySize := fun _ _ v a1 a2 =>
  ⟨fun hf => Record.encode_of_f1 hf a1 a2, fun hf => Record.encode_of_f3 hf v a2⟩

/-- Settles O7: the four registers' numbers are 0 to 3. -/
theorem selectorsNameTheFourRegisters : Obligations.SelectorsNameTheFourRegisters := fun _ =>
  ⟨regOf_eq_some, regOf_eq_some, regOf_eq_some, regOf_eq_some, regOf_eq_none⟩

end Sys2Proof.Machine
end

section
/-! The proofs about the engine's cycle (spec/40_engine_cycle.md): what the fetch finds in the bytes at `ip`, how a
step ends in a fault of the fetch, and the run loop. The lemmas hold under every opcode map. -/

namespace Sys2Proof.Machine

variable {c : Config} {s t : State}

/-! ### The bytes at `ip` and the fetch (R70, R71) -/

theorem State.memRead_eq_ok {a : Nat} {b : Byte} :
    s.memRead a = .ok b ↔ a < Config.cap ∧ Memory.get s.mem a = b := by
  obtain ⟨ha, e⟩ | ⟨ha, e⟩ := s.memRead_cases a
  · simp [e, ha]
  · simp [e, Nat.not_lt.2 ha]

/-- The first byte read stands at the address, inside memory, and the others are read from the next address on. -/
theorem State.readBytes_cons {a n : Nat} {b : Byte} {bs : List Byte} (h : s.readBytes a n = .ok (b :: bs)) :
    (a < Config.cap ∧ Memory.get s.mem a = b) ∧ ∃ m, s.readBytes (a + 1) m = .ok bs := by
  cases n with
  | zero => cases h
  | succ n =>
    rw [State.readBytes] at h
    split at h
    · cases h
    · next hb =>
      split at h
      · cases h
      · next hbs =>
        cases h
        exact ⟨State.memRead_eq_ok.1 hb, n, hbs⟩

/-- The fetch finds the instruction that any number of bytes at `ip` decode to: it reads no more of them than the
instruction has. -/
theorem State.fetch_of_decode {n : Nat} {bs rest : List Byte} {i : Instr} (hbs : s.readBytes s.ip.toNat n = .ok bs)
    (hi : decode c bs = .ok (i, rest)) : s.fetch c = .ok i := by
  have hd : DecodeResult c bs (.ok (i, rest)) := hi ▸ decode_result c bs
  clear hi
  cases hd with
  | one hf =>
    obtain ⟨⟨-, hop⟩, -⟩ := State.readBytes_cons hbs
    exact State.fetch_one (opcodeOf_eq_some.2 hop.symm) hf
  | three hf =>
    obtain ⟨⟨-, hop⟩, _, hbs⟩ := State.readBytes_cons hbs
    obtain ⟨⟨-, rfl⟩, _, hbs⟩ := State.readBytes_cons hbs
    obtain ⟨⟨hlt, rfl⟩, -⟩ := State.readBytes_cons hbs
    exact State.fetch_three (opcodeOf_eq_some.2 hop.symm) hf hlt

theorem State.fetch_outOfBounds_iff : s.fetch c = .error .outOfBounds ↔
    (∃ op : Opcode, c.opc op = Memory.get s.mem s.ip.toNat ∧ op.format = .f3) ∧ 0xFFFE ≤ s.ip.toNat := by
  constructor
  · intro h
    have hr : FetchResult c s (.error .outOfBounds) := h ▸ s.fetch_result c
    clear h
    cases hr with
    | beyond hop hf hge => exact ⟨⟨_, opcodeOf_eq_some.1 hop, hf⟩, by simp only [Config.cap] at hge; omega⟩
  · rintro ⟨⟨op, hop, hf⟩, hge⟩
    exact State.fetch_beyond (opcodeOf_eq_some.2 hop) hf (by simp only [Config.cap]; omega)

/-! ### How a step ends in a fault of the fetch (R71, R121) -/

/-- The faults an instruction takes are its own: none is a fault of the fetch. -/
theorem ExecEffect.fault_kind {i : Instr} {k : FaultKind} (h : ExecEffect s i t) (hrun : s.run = .running)
    (hk : t.run = .faulted k) : k ≠ .outOfBounds ∧ k ≠ .illegalInstruction := by
  cases h with
  | pushInvalid | pushOverflow | popInvalid | popUnderflow | divZero => cases hk; exact ⟨nofun, nofun⟩
  | hlt => cases hk
  | _ => simp [hrun] at hk

/-- A running machine ends in a fault of the fetch only by taking it, so with nothing but `run` and the reports
changed. -/
theorem StepEffect.eq_raise_of_fetch_kind {k : FaultKind} (h : StepEffect c s t) (hrun : s.run = .running)
    (hk : t.run = .faulted k) (hfetch : k = .outOfBounds ∨ k = .illegalInstruction) :
    s.fetch c = .error k ∧ t = s.raise k := by
  cases h with
  | halted hr => rw [hrun] at hr; cases hr
  | fetchFault _ hf => cases hk; exact ⟨hf, rfl⟩
  | exec _ _ he =>
    obtain ⟨hne, hne'⟩ := he.fault_kind hrun hk
    exact absurd hfetch (not_or.2 ⟨hne, hne'⟩)

/-! ### A running machine steps (R74) -/

theorem stepWith_running (c : Config) (hrun : s.run = .running) : ∃ t, stepWith c s = .next t := by
  cases hf : s.fetch c with
  | error k => exact ⟨_, step_fetch_error hrun hf⟩
  | ok i =>
    obtain ⟨t, ht, -⟩ := exec_effect i (s.advance i.size)
    exact ⟨t, (step_fetch_ok hrun hf).trans ht⟩

/-! ### The run loop (R73, R156) -/

theorem runFor_ended (c : Config) (n : Nat) (h : s.run ≠ .running) : runFor c n s = .next s := by
  cases n with
  | zero => rfl
  | succ n =>
    cases hr : s.run with
    | running => exact absurd hr h
    | halted => exact runFor_succ_halted n hr
    | faulted k => exact runFor_succ_faulted n hr

theorem runFor_next (c : Config) (n : Nat) (s : State) : ∃ t, runFor c n s = .next t := by
  induction n generalizing s with
  | zero => exact ⟨s, rfl⟩
  | succ n ih =>
    by_cases hrun : s.run = .running
    · obtain ⟨t, ht⟩ := stepWith_running c hrun
      rw [runFor_succ_running n hrun ht]
      exact ih t
    · exact ⟨s, runFor_ended c _ hrun⟩

theorem runFor_one (c : Config) (hrun : s.run = .running) : runFor c 1 s = stepWith c s := by
  obtain ⟨t, ht⟩ := stepWith_running c hrun
  rw [runFor_succ_running 0 hrun ht, runFor_zero, ht]

theorem runFor_add {n : Nat} (m : Nat) (h : runFor c n s = .next t) : runFor c (n + m) s = runFor c m t := by
  induction n generalizing s with
  | zero => cases h; rw [Nat.zero_add]
  | succ n ih =>
    by_cases hrun : s.run = .running
    · obtain ⟨u, hu⟩ := stepWith_running c hrun
      rw [runFor_succ_running n hrun hu] at h
      rw [Nat.succ_add, runFor_succ_running _ hrun hu, ih h]
    · rw [runFor_ended c _ hrun] at h
      cases h
      rw [runFor_ended c _ hrun, runFor_ended c _ hrun]

/-! ### The run that never ends (R77) -/

theorem State.advance_advance (s : State) (m n : Nat) : (s.advance m).advance n = s.advance (m + n) := by
  simp only [State.advance, BitVec.ofNat_add, BitVec.add_assoc]

/-- From memory filled with `NOP`, `n` rounds are one advance by `n`: each round leaves memory filled. -/
theorem runFor_nop_filled (n : Nat) (hrun : s.run = .running)
    (hmem : ∀ a, a < Config.cap → Memory.get s.mem a = c.opc .nop) : runFor c n s = .next (s.advance n) := by
  induction n generalizing s with
  | zero => simp [runFor_zero, State.advance]
  | succ n ih =>
    have hstep : stepWith c s = .next (s.advance 1) := stepWith_of_opcode_byte (i := .nop) hrun rfl (hmem _ s.ip_lt)
    rw [runFor_succ_running n hrun hstep, ih (s := s.advance 1) hrun hmem, State.advance_advance, Nat.add_comm]

/-! ### The obligations -/

/-- Settles O13: only the fetch raises `OutOfBounds`, and it does so exactly for these bytes. -/
theorem operandBeyondMemoryFaults : Obligations.OperandBeyondMemoryFaults := by
  intro c s hrun
  have hraise {t : State} (h : stepWith c s = .next t) (hk : t.run = .faulted .outOfBounds) :=
    (step_next h).eq_raise_of_fetch_kind hrun hk (.inl rfl)
  refine ⟨?_, fun t h hk => ?_⟩
  · rw [← State.fetch_outOfBounds_iff]
    exact ⟨fun ⟨t, h, hk⟩ => (hraise h hk).1, fun hf => ⟨_, step_fetch_error hrun hf, rfl⟩⟩
  · rw [(hraise h hk).2, State.raise_ip]

/-- Settles O14: by the effects of `exec`; a step takes the fetch's fault or runs an instruction. -/
theorem runningMachineAlwaysSteps : Obligations.RunningMachineAlwaysSteps := by
  refine ⟨fun i s => ?_, fun s => stepWith_running .default⟩
  obtain ⟨t, ht, -⟩ := exec_effect i s
  exact ⟨t, ht⟩

/-- Settles O40: by induction on the rounds; each is a step of a running machine or idle. -/
theorem runLoopStopsOnlyAtTheEnd : Obligations.RunLoopStopsOnlyAtTheEnd :=
  ⟨runFor_next, fun c n _ => runFor_ended c n, fun c _ => runFor_one c, fun _ => runFor_one .default,
    fun _ _ m _ _ => runFor_add m⟩

/-- Settles O41: the state after `n` rounds is the first with `ip` advanced by `n`. -/
theorem nopFilledMemoryNeverStops : Obligations.NopFilledMemoryNeverStops := fun _ _ hrun hmem n =>
  ⟨_, runFor_nop_filled n hrun hmem, hrun, by simp [BitVec.toNat_add], rfl⟩

/-- Settles O11: the fetch finds the instruction the bytes decode to. -/
theorem stepRunsTheDecodedInstruction : Obligations.StepRunsTheDecodedInstruction :=
  ⟨fun _ s _ _ _ i hrun hbs hi =>
    ⟨step_fetch_ok hrun (State.fetch_of_decode hbs hi), s.toNat_advance i, rfl⟩, fun _ => rfl⟩

end Sys2Proof.Machine
end

section
/-! The proofs about NOP and HLT (spec/41_nop_halt.md): the step of a NOP, and the dump of the halt report. -/

namespace Sys2Proof.Machine

/-! ### The step of a NOP (R72, R80) -/

theorem stepWith_nop {c : Config} {s : State} (hrun : s.run = .running)
    (hbyte : Memory.get s.mem s.ip.toNat = c.opc .nop) : stepWith c s = .next (s.advance 1) :=
  (stepWith_of_opcode_byte (i := .nop) hrun rfl hbyte).trans (exec_nop _)

/-! ### The dump of the halt report (R82) -/

theorem State.length_dump (s : State) : s.haltReport.dump.length = 32 := by
  simp [State.haltReport]

theorem State.dump_getElem? (s : State) {k : Nat} (h : k < 32) :
    s.haltReport.dump[k]? = some (Memory.get s.mem (0xFFE0 + k)) := by
  simp [State.haltReport, Config.cap, Config.dumpLen, h]

/-! ### The obligations -/

/-- Settles O18: the step is the advance by NOP's one byte, whose sum wraps in 16 bits. -/
theorem nopOnlyAdvances : Obligations.NopOnlyAdvances :=
  ⟨exec_nop, fun _ => stepWith_nop (c := .default)⟩

/-- Settles O19: `exec` answers `State.halt`, whose report holds the dump. -/
theorem haltReportsAndEndsTheRun : Obligations.HaltReportsAndEndsTheRun := fun s =>
  ⟨s.halt, s.haltReport.dump, exec_hlt s, s.halt_run, s.length_dump, fun _ => s.dump_getElem?, s.halt_sink, rfl⟩

end Sys2Proof.Machine
end

section
/-! The proof about the moves (spec/42_move_immediate.md). -/

namespace Sys2Proof.Machine

/-- Settles O20: `exec` answers `State.setReg` or `State.setSp`, each of which replaces that one field. -/
theorem movesWriteTheLiteral : Obligations.MovesWriteTheLiteral := fun v s =>
  ⟨exec_movAx v s, exec_movBx v s, exec_movCx v s, exec_movDx v s, exec_movSp v s⟩

end Sys2Proof.Machine
end

section
/-! The proofs about the arithmetic family (spec/43_arithmetic.md): the unsigned values of a wrapped result and of a
quotient. -/

namespace Sys2Proof.Machine

/-! ### The results as unsigned numbers (R93, R97) -/

@[simp] theorem toNat_wrap16 (n : Nat) : (wrap16 n).toNat = n % 65536 := BitVec.toNat_ofNat n 16

/-- The quotient fits in 16 bits, so nothing of it is discarded. -/
@[simp] theorem toNat_div16 (a b : Word) : (div16 a b).toNat = a.toNat / b.toNat := by
  have hfits : a.toNat / b.toNat < 2 ^ 16 := (Nat.div_le_self _ _).trans_lt a.isLt
  rw [div16, BitVec.toNat_ofNat, Nat.mod_eq_of_lt hfits]

/-- The 65536 that keeps the difference of two words natural does not change it modulo 65536 (R95). -/
theorem toNat_wrap16_sub (a b : Word) :
    ((wrap16 (a.toNat + 65536 - b.toNat)).toNat : Int) = ((a.toNat : Int) - (b.toNat : Int)) % 65536 := by
  have hb := b.isLt
  rw [toNat_wrap16]
  omega

theorem div16_mul_le (a b : Word) : (div16 a b).toNat * b.toNat ≤ a.toNat := by
  rw [toNat_div16]
  exact Nat.div_mul_le_self _ _

theorem lt_div16_add_one_mul (a : Word) {b : Word} (h : b ≠ 0#16) :
    a.toNat < ((div16 a b).toNat + 1) * b.toNat := by
  have hpos : 0 < b.toNat := Nat.pos_of_ne_zero fun h0 => h (BitVec.eq_of_toNat_eq h0)
  rw [toNat_div16, ← Nat.div_lt_iff_lt_mul hpos]
  exact Nat.lt_succ_self _

/-! ### The obligations -/

/-- Settles O24: `exec` answers `State.setReg .ax` of the wrapped sum. -/
theorem addWraps : Obligations.AddWraps := fun s => ⟨_, exec_add s, toNat_wrap16 _, rfl⟩

/-- Settles O25: `exec` answers `State.setReg .ax` of the wrapped difference. -/
theorem subWraps : Obligations.SubWraps := fun s => ⟨_, exec_sub s, toNat_wrap16_sub s.ax s.bx, rfl⟩

/-- Settles O26: `exec` answers `State.setReg .ax` of the wrapped product. -/
theorem mulKeepsTheLowHalf : Obligations.MulKeepsTheLowHalf := fun s => ⟨_, exec_mul s, toNat_wrap16 _, rfl⟩

/-- Settles O27: `exec` answers `State.setReg .ax` of the quotient, which the two bounds determine. -/
theorem divTruncates : Obligations.DivTruncates := fun s h =>
  ⟨_, exec_div_nonzero h, div16_mul_le s.ax s.bx, lt_div16_add_one_mul s.ax h, rfl⟩

end Sys2Proof.Machine
end

section
/-! The proof about the flag opcodes (spec/44_flags.md): the masks of R101 to R108 as literal words. -/

namespace Sys2Proof.Machine

/-! ### An opcode of the flag family with its mask as a literal (R100, D2) -/

theorem exec_of_set_mask (s : State) {i : Instr} {f : Flag} {m : Word} (hw : flagWrite i = some (f, true))
    (hm : flagMask f = m) : exec i s = .next { s with flags := s.flags ||| m } :=
  hm ▸ exec_of_flagWrite_set s hw

theorem exec_of_clear_mask (s : State) {i : Instr} {f : Flag} {m : Word} (hw : flagWrite i = some (f, false))
    (hm : ~~~(flagMask f) = m) : exec i s = .next { s with flags := s.flags &&& m } :=
  hm ▸ exec_of_flagWrite_clear s hw

/-! ### The obligation -/

/-- Settles O22: each opcode forces one flag, and the literal of its rule is that flag's mask or its complement. -/
theorem flagOpcodesForceTheirBit : Obligations.FlagOpcodesForceTheirBit := fun s =>
  ⟨exec_of_set_mask s rfl (by decide : flagMask .equal = 0x0008#16),
    exec_of_clear_mask s rfl (by decide : ~~~(flagMask .equal) = 0xFFF7#16),
    exec_of_set_mask s rfl (by decide : flagMask .greater = 0x0004#16),
    exec_of_clear_mask s rfl (by decide : ~~~(flagMask .greater) = 0xFFFB#16),
    exec_of_set_mask s rfl (by decide : flagMask .higher = 0x0002#16),
    exec_of_clear_mask s rfl (by decide : ~~~(flagMask .higher) = 0xFFFD#16),
    exec_of_set_mask s rfl (by decide : flagMask .lower = 0x0001#16),
    exec_of_clear_mask s rfl (by decide : ~~~(flagMask .lower) = 0xFFFE#16)⟩

end Sys2Proof.Machine
end

section
/-! The proofs about the stack (spec/45_stack.md): what a push leaves unchanged, and that a pop finds the word the push
before it stored. -/

namespace Sys2Proof.Machine

variable {s t : State} {sel : Word} {r : Reg}

/-! ### A new memory or stack pointer (R11, R110) -/

@[simp] theorem State.reg_with_mem (s : State) (m : Memory) (r : Reg) : State.reg { s with mem := m } r = s.reg r := by
  cases r <;> rfl

/-- A push that passes the overflow check does not wrap `sp` (R113). -/
theorem State.toNat_sp_sub_slot (h : 2 ≤ s.sp.toNat) : (s.sp - 2#16).toNat = s.sp.toNat - 2 :=
  BitVec.toNat_sub_of_le (y := 2#16) h

/-- A pop that passes the underflow check does not wrap `sp` (R114). -/
theorem State.toNat_sp_add_slot (h : s.sp.toNat ≤ 0xFFFD) : (s.sp + 2#16).toNat = s.sp.toNat + 2 :=
  BitVec.toNat_add_of_lt (y := 2#16) (show s.sp.toNat + 2 < 65536 by omega)

/-- With `sp` as a push leaves it, the slot a pop reads is the slot the push wrote (R110). -/
theorem State.popAddr_eq_pushAddr (h : 2 ≤ s.sp.toNat) (ht : t.sp = s.sp - 2#16) : t.popAddr = s.pushAddr := by
  rw [State.popAddr, State.pushAddr, ht, State.toNat_sp_sub_slot h]
  omega

/-- What a push changed apart from memory is undone by putting `sp` back. -/
theorem State.setReg_setSp_of_frame (h : t = { s with sp := t.sp, mem := t.mem }) (r : Reg) (v : Word) :
    (t.setReg r v).setSp s.sp = State.setReg { s with mem := t.mem } r v := by
  rw [h]
  cases r <;> rfl

/-! ### PUSH, and POP after it (R111, R112, R115) -/

/-- A push that passes its checks changes no byte outside its slot and no element besides `sp` and memory. -/
theorem exec_push_frame (hr : regOf sel = some r) (hsp : 2 ≤ s.sp.toNat) (h : exec (.push sel) s = .next t) :
    t.sp = s.sp - 2#16 ∧
      (∀ a, a ≠ s.pushAddr → a ≠ s.pushAddr + 1 → Memory.get t.mem a = Memory.get s.mem a) ∧
      t = { s with sp := t.sp, mem := t.mem } := by
  rw [exec_push_ok hr hsp] at h
  cases h
  exact ⟨rfl, fun _ hlow hhigh => Memory.get_set16_of_ne _ _ hlow hhigh, rfl⟩

/-- A pop right after a push puts `sp` back and copies the pushed register, so memory and the popped register are all
that the two change. -/
theorem exec_pop_of_exec_push {b : Word} {rb : Reg} (hr : regOf sel = some r) (hb : regOf b = some rb)
    (hsp : 2 ≤ s.sp.toNat) (h : exec (.push sel) s = .next t) :
    exec (.pop b) t = .next (State.setReg { s with mem := t.mem } rb (s.reg r)) := by
  obtain ⟨-, -, hlow, hhigh⟩ := exec_push_stores hr hsp h
  obtain ⟨htsp, -, hframe⟩ := exec_push_frame hr hsp h
  have hfits : t.sp.toNat ≤ 0xFFFD := by
    have hlt := s.sp.isLt
    rw [htsp, State.toNat_sp_sub_slot hsp]
    omega
  have hback : t.sp + 2#16 = s.sp := by rw [htsp, BitVec.sub_add_cancel]
  rw [exec_pop_ok hb hfits, State.popAddr_eq_pushAddr hsp htsp, State.pushAddr_add_one hsp, hlow, hhigh,
    wordOfBytes_low_high, hback, State.setReg_setSp_of_frame hframe]

/-! ### The obligations -/

/-- Settles O29: the bytes a push stores, and its frame. -/
theorem pushStoresTheRegister : Obligations.PushStoresTheRegister := by
  intro s sel r hr hsp
  have hexec := exec_push_ok hr hsp
  obtain ⟨-, -, hlow, hhigh⟩ := exec_push_stores hr hsp hexec
  obtain ⟨-, hbytes, hframe⟩ := exec_push_frame hr hsp hexec
  rw [← State.pushAddr_add_one hsp] at hhigh
  exact ⟨_, hexec, State.toNat_sp_sub_slot hsp, rfl, hlow, hhigh, hbytes, hframe⟩

/-- Settles O30: the word popped is its two bytes, and `State.setReg` and `State.setSp` change nothing else. -/
theorem popLoadsTheRegister : Obligations.PopLoadsTheRegister := by
  intro s sel r hr hsp
  refine ⟨_, exec_pop_ok hr hsp, State.toNat_sp_add_slot hsp, ?_, fun q hq => ?_, ?_⟩
  · rw [State.setSp_reg, State.setReg_reg_self, toNat_wordOfBytes, State.popAddr]
  · rw [State.setSp_reg, State.setReg_reg_of_ne _ _ hq]
  · simp

/-- Settles O31: after the pop the state is the first one with memory and the popped register replaced. -/
theorem pushThenPopRestores : Obligations.PushThenPopRestores := by
  intro s a b ra rb ha hb hsp
  obtain ⟨t, hpush⟩ : ∃ t, exec (.push a) s = .next t := ⟨_, exec_push_ok ha hsp⟩
  obtain ⟨-, hbytes, -⟩ := exec_push_frame ha hsp hpush
  rw [State.pushAddr_add_one hsp] at hbytes
  refine ⟨t, _, hpush, exec_pop_of_exec_push ha hb hsp hpush, State.setReg_reg_self _ _ _, fun q hq => ?_, ?_,
    State.setReg_sp _ _ _, State.setReg_flags _ _ _, State.setReg_run _ _ _, fun x hlow hhigh => ?_⟩
  · rw [State.setReg_reg_of_ne _ _ hq, State.reg_with_mem]
  · rintro rfl q
    rw [← State.reg_with_mem s t.mem ra, State.setReg_reg, State.reg_with_mem]
  · rw [State.setReg_mem]
    exact hbytes x hlow hhigh

end Sys2Proof.Machine
end

section
/-! The proofs about the faults (spec/60_exceptions.md): which instruction raises which fault and from which states, and
what a step that faults leaves. The lemmas about the step hold under every opcode map. -/

namespace Sys2Proof.Machine

variable {c : Config} {s t : State} {i : Instr} {k : FaultKind}

/-! ### The causes of the faults an instruction raises (R123 to R126, R129) -/

/-- The cause of each fault an instruction can raise; `ExecFault.exec_eq` and `exec_faulted_iff` tie it to `exec`. -/
inductive ExecFault (s : State) : Instr → FaultKind → Prop where
  | divZero (h : s.bx = 0#16) : ExecFault s .div .divisionByZero
  | pushInvalid {sel : Word} (h : 4 ≤ sel.toNat) : ExecFault s (.push sel) .invalidOperand
  | popInvalid {sel : Word} (h : 4 ≤ sel.toNat) : ExecFault s (.pop sel) .invalidOperand
  | pushOverflow {sel : Word} (h : sel.toNat < 4) (ho : s.sp.toNat < 2) : ExecFault s (.push sel) .stackOverflow
  | popUnderflow {sel : Word} (h : sel.toNat < 4) (hu : 0xFFFD < s.sp.toNat) : ExecFault s (.pop sel) .stackUnderflow

theorem exists_regOf_eq_some {sel : Word} : (∃ r, regOf sel = some r) ↔ sel.toNat < 4 := by
  rw [← Option.ne_none_iff_exists', ne_eq, regOf_eq_none, Nat.not_le]

/-- Each cause makes `exec` take its fault (R127). -/
theorem ExecFault.exec_eq (h : ExecFault s i k) : exec i s = .next (s.raise k) := by
  cases h with
  | divZero h => exact exec_div_zero h
  | pushInvalid h => exact exec_push_invalid s (regOf_eq_none.2 h)
  | popInvalid h => exact exec_pop_invalid s (regOf_eq_none.2 h)
  | pushOverflow h ho =>
    obtain ⟨r, hr⟩ := exists_regOf_eq_some.2 h
    exact exec_push_overflow hr ho
  | popUnderflow h hu =>
    obtain ⟨r, hr⟩ := exists_regOf_eq_some.2 h
    exact exec_pop_underflow hr hu

/-- An instruction ends a running machine in a fault only by one of the causes, and only by taking that fault. -/
theorem ExecEffect.execFault (h : ExecEffect s i t) (hrun : s.run = .running) (hk : t.run = .faulted k) :
    ExecFault s i k ∧ t = s.raise k := by
  cases h with
  | divZero h => cases hk; exact ⟨.divZero h, rfl⟩
  | pushInvalid h => cases hk; exact ⟨.pushInvalid (regOf_eq_none.1 h), rfl⟩
  | popInvalid h => cases hk; exact ⟨.popInvalid (regOf_eq_none.1 h), rfl⟩
  | pushOverflow h ho => cases hk; exact ⟨.pushOverflow (exists_regOf_eq_some.1 ⟨_, h⟩) ho, rfl⟩
  | popUnderflow h hu => cases hk; exact ⟨.popUnderflow (exists_regOf_eq_some.1 ⟨_, h⟩) hu, rfl⟩
  | hlt => cases hk
  | _ => simp [hrun] at hk

theorem exec_faulted_iff (hrun : s.run = .running) (h : exec i s = .next t) :
    t.run = .faulted k ↔ ExecFault s i k := by
  constructor
  · exact fun hk => ((exec_next h).execFault hrun hk).1
  · intro hx
    rw [hx.exec_eq] at h
    cases h
    rfl

theorem execFault_divisionByZero : ExecFault s i .divisionByZero ↔ i = .div ∧ s.bx = 0#16 :=
  ⟨fun | .divZero h => ⟨rfl, h⟩, fun ⟨hi, h⟩ => hi ▸ .divZero h⟩

theorem execFault_invalidOperand :
    ExecFault s i .invalidOperand ↔ ∃ sel : Word, (i = .push sel ∨ i = .pop sel) ∧ 4 ≤ sel.toNat := by
  constructor
  · rintro (_ | h | h)
    · exact ⟨_, .inl rfl, h⟩
    · exact ⟨_, .inr rfl, h⟩
  · rintro ⟨sel, rfl | rfl, h⟩
    · exact .pushInvalid h
    · exact .popInvalid h

theorem execFault_stackOverflow :
    ExecFault s i .stackOverflow ↔ ∃ sel : Word, i = .push sel ∧ sel.toNat < 4 ∧ s.sp.toNat < 2 :=
  ⟨fun | .pushOverflow h ho => ⟨_, rfl, h, ho⟩, fun ⟨_, hi, h, ho⟩ => hi ▸ .pushOverflow h ho⟩

theorem execFault_stackUnderflow :
    ExecFault s i .stackUnderflow ↔ ∃ sel : Word, i = .pop sel ∧ sel.toNat < 4 ∧ 0xFFFD < s.sp.toNat :=
  ⟨fun | .popUnderflow h hu => ⟨_, rfl, h, hu⟩, fun ⟨_, hi, h, hu⟩ => hi ▸ .popUnderflow h hu⟩

/-! ### The faults of the fetch (R121, R122) -/

theorem State.fetch_illegalInstruction_iff :
    s.fetch c = .error .illegalInstruction ↔ ∀ op : Opcode, c.opc op ≠ Memory.get s.mem s.ip.toNat := by
  rw [← opcodeOf_eq_none]
  constructor
  · intro h
    have hr : FetchResult c s (.error .illegalInstruction) := h ▸ s.fetch_result c
    clear h
    cases hr with
    | illegal hop => exact hop
  · exact State.fetch_illegal

theorem State.fetch_error_kind (h : s.fetch c = .error k) : k = .outOfBounds ∨ k = .illegalInstruction := by
  have hr : FetchResult c s (.error k) := h ▸ s.fetch_result c
  clear h
  cases hr with
  | illegal => exact .inr rfl
  | beyond => exact .inl rfl

/-! ### The step that faults (R127, R128) -/

/-- A running machine's step ends in a fault of the fetch exactly when the fetch raises it. -/
theorem stepWith_fetch_faulted_iff (hrun : s.run = .running) (hfetch : k = .outOfBounds ∨ k = .illegalInstruction) :
    (∃ t, stepWith c s = .next t ∧ t.run = .faulted k) ↔ s.fetch c = .error k :=
  ⟨fun ⟨_, h, hk⟩ => ((step_next h).eq_raise_of_fetch_kind hrun hk hfetch).1,
    fun hf => ⟨_, step_fetch_error hrun hf, rfl⟩⟩

/-- The fault of an instruction is taken with `ip` past it (D18). -/
theorem stepWith_of_execFault (hrun : s.run = .running) (hf : s.fetch c = .ok i)
    (hx : ExecFault (s.advance i.size) i k) : stepWith c s = .next ((s.advance i.size).raise k) :=
  (step_fetch_ok hrun hf).trans hx.exec_eq

/-- A running machine's step ends in a fault by taking one: the fetch's at the opcode byte, or an instruction's past
that instruction. -/
theorem StepEffect.faulted_cases (h : StepEffect c s t) (hrun : s.run = .running) (hk : t.run = .faulted k) :
    (s.fetch c = .error k ∧ t = s.raise k) ∨
    (∃ i, s.fetch c = .ok i ∧ ExecFault (s.advance i.size) i k ∧ t = (s.advance i.size).raise k) := by
  cases h with
  | halted hr => rw [hrun] at hr; cases hr
  | fetchFault _ hf => cases hk; exact .inl ⟨hf, rfl⟩
  | exec _ hf he => exact .inr ⟨_, hf, he.execFault hrun hk⟩

/-- No instruction is so long that `ip` wraps round to where it was. -/
theorem State.advance_size_ip_ne (s : State) (i : Instr) : (s.advance i.size).ip ≠ s.ip := by
  intro h
  have hip := congrArg BitVec.toNat h
  have hlt := s.ip.isLt
  rw [s.toNat_advance] at hip
  rcases i.size_cases with hsize | hsize <;> omega

/-! ### The obligations -/

/-- Settles O12: only the fetch raises `IllegalInstruction`, and it does so exactly for these bytes. -/
theorem illegalOpcodeByteFaults : Obligations.IllegalOpcodeByteFaults := by
  intro c s hrun
  refine ⟨(stepWith_fetch_faulted_iff hrun (.inr rfl)).trans State.fetch_illegalInstruction_iff, fun t h hk => ?_⟩
  obtain ⟨-, rfl⟩ := (step_next h).eq_raise_of_fetch_kind hrun hk (.inr rfl)
  exact s.raise_ip _

/-- Settles O33: an instruction ends in a fault exactly by its cause, and each kind has the causes listed. -/
theorem faultCausesAreExact : Obligations.FaultCausesAreExact := by
  intro i s t hrun h
  have hiff (k : FaultKind) : t.run = .faulted k ↔ ExecFault s i k := exec_faulted_iff hrun h
  exact ⟨(hiff _).trans execFault_divisionByZero, (hiff _).trans execFault_invalidOperand,
    (hiff _).trans execFault_stackOverflow, (hiff _).trans execFault_stackUnderflow,
    (hiff _).not.2 nofun, (hiff _).not.2 nofun⟩

/-- Settles O34: a step faults in the fetch, with `ip` kept, or in an instruction, with `ip` past it. -/
theorem faultsArePrecise : Obligations.FaultsArePrecise := by
  intro s t k hrun h hk
  rcases (step_next h).faulted_cases hrun hk with ⟨hf, rfl⟩ | ⟨i, hf, hx, rfl⟩
  · exact ⟨iff_of_true rfl (State.fetch_error_kind hf), by simp [hf], rfl⟩
  · have hkind : ¬ (k = .outOfBounds ∨ k = .illegalInstruction) := by rintro (rfl | rfl) <;> cases hx
    refine ⟨iff_of_false (s.advance_size_ip_ne i) hkind, fun j hj => ?_, rfl⟩
    rw [hf] at hj
    cases hj
    exact s.toNat_advance i

/-- Settles O28: BX = 0 is DIV's cause of its fault, and the advance by DIV's one byte leaves BX. -/
theorem divByZeroFaults : Obligations.DivByZeroFaults := fun _ hrun hf hbx =>
  ⟨_, stepWith_of_execFault hrun hf (.divZero hbx), rfl, rfl, rfl, rfl⟩

/-- Settles O32: `sp < 2` is the cause of the fault, and the advance by PUSH's three bytes leaves `sp`. -/
theorem pushWithNoRoomFaults : Obligations.PushWithNoRoomFaults := fun _ _ _ hrun hf hr hsp =>
  ⟨_, stepWith_of_execFault hrun hf (.pushOverflow (exists_regOf_eq_some.1 ⟨_, hr⟩) hsp), rfl, rfl, rfl, rfl⟩

end Sys2Proof.Machine
end

section
/-! The proofs about the host's operations (spec/70_reset_and_hazards.md): the loader, the memory port, when each
operation is allowed, and the invariant. The lemmas about the loader hold under every opcode map. -/

namespace Sys2Proof.Machine

variable {c : Config} {s t : State}

/-! ### The loader (R152 to R154) -/

/-- What the loop does with a record depends on no record after it: one that lacks a slot is refused, one that fits
moves the cursor on, and one that does not fit faults. -/
theorem State.loadRecords_cons_cases (c : Config) (s : State) (r : Record) :
    (∀ rs, State.loadRecords c (r :: rs) s = .refused .missingOperand) ∨
    (∃ m n, n ≤ Config.cap ∧ (Memory.wf s.mem = true → Memory.wf m = true) ∧
      ∀ rs, State.loadRecords c (r :: rs) s = State.loadRecords c rs { s with mem := m, cursor := n }) ∨
    (∃ m, (Memory.wf s.mem = true → Memory.wf m = true) ∧
      ∀ rs, State.loadRecords c (r :: rs) s = .next (State.raise { s with mem := m } .outOfBounds)) := by
  cases he : r.encode c with
  | none => exact .inl fun rs => by simp [State.loadRecords, he]
  | some bs =>
    rcases Nat.lt_or_ge Config.cap (s.cursor + bs.length) with h | h
    · obtain ⟨m, hm, -, -, hwf⟩ := State.storeBytes_of_beyond bs s.cursor s h (Record.encode_ne_nil he)
      exact .inr (.inr ⟨m, hwf, fun rs => by simp [State.loadRecords, he, hm]⟩)
    · obtain ⟨m, hm, -, -, hwf⟩ := State.storeBytes_of_fits bs s.cursor s h
      exact .inr (.inl ⟨m, _, h, hwf, fun rs => by simp [State.loadRecords, he, hm]⟩)

/-- Records that leave a running machine are loaded, whatever follows them. -/
theorem State.loadRecords_append {rs : List Record} (rs' : List Record) (h : State.loadRecords c rs s = .next t)
    (hrun : t.run = .running) : State.loadRecords c (rs ++ rs') s = State.loadRecords c rs' t := by
  induction rs generalizing s with
  | nil => cases h; rfl
  | cons r rs ih =>
    obtain hr | ⟨m, n, -, -, hr⟩ | ⟨m, -, hr⟩ := State.loadRecords_cons_cases c s r
    · rw [hr] at h
      cases h
    · rw [hr] at h
      rw [List.cons_append, hr, ih h]
    · rw [hr] at h
      cases h
      cases hrun

/-- Records that fit are serialised one after another from the cursor on. -/
theorem State.loadRecords_of_fits {rs : List Record} {bss : List (List Byte)}
    (he : rs.map (Record.encode c) = bss.map some) (hfit : s.cursor + bss.flatten.length ≤ Config.cap) :
    ∃ m, State.loadRecords c rs s = .next { s with mem := m, cursor := s.cursor + bss.flatten.length } ∧
      (∀ (j : Nat) (v : Byte), bss.flatten[j]? = some v → Memory.get m (s.cursor + j) = v) ∧
      (∀ a, a < s.cursor ∨ s.cursor + bss.flatten.length ≤ a → Memory.get m a = Memory.get s.mem a) := by
  induction rs generalizing s bss with
  | nil =>
    obtain rfl : bss = [] := by simpa using he.symm
    exact ⟨s.mem, rfl, by simp, fun _ _ => rfl⟩
  | cons r rs ih =>
    cases bss with
    | nil => simp at he
    | cons bs bss =>
      simp only [List.map_cons, List.cons.injEq] at he
      obtain ⟨her, hers⟩ := he
      simp only [List.flatten_cons, List.length_append] at hfit ⊢
      obtain ⟨m, hm, hin, hout, -⟩ := State.loadRecords_fits (s := s) rs her (by omega)
      obtain ⟨m', hm', hin', hout'⟩ :=
        ih (s := { s with mem := m, cursor := s.cursor + bs.length }) hers (by simp only; omega)
      refine ⟨m', ?_, fun j v hj => ?_, fun a ha => ?_⟩
      · rw [hm, hm', Nat.add_assoc]
      · rcases Nat.lt_or_ge j bs.length with hlt | hge
        · rw [List.getElem?_append_left hlt] at hj
          rw [hout' _ (.inl (by simp only; omega)), hin j v hj]
        · rw [List.getElem?_append_right hge] at hj
          have hv := hin' _ v hj
          rwa [Nat.add_assoc, Nat.add_sub_cancel' hge] at hv
      · rw [hout' a (by simp only; omega), hout a (by omega)]

theorem State.load_ended (c : Config) (h : s.run ≠ .running) (rs : List Record) :
    s.load c rs = .refused .loadAfterEnd := by
  cases hr : s.run with
  | running => exact absurd hr h
  | halted => simp [State.load, hr]
  | faulted k => simp [State.load, hr]

/-! ### The memory port (R33, R141, R157) -/

@[simp] theorem State.hostRaise_mem (s : State) (k : FaultKind) : (s.hostRaise k).mem = s.mem := by
  obtain ⟨-, h⟩ | ⟨-, h⟩ := s.hostRaise_cases k <;> simp [h]

theorem State.hostRead_of_lt (s : State) {a : Nat} (h : a < Config.cap) :
    s.hostRead a = (s, some (Memory.get s.mem a)) := by
  rw [State.hostRead, s.memRead_of_lt h, State.hostAnswer]

theorem State.hostRead_of_ge (s : State) {a : Nat} (h : Config.cap ≤ a) :
    s.hostRead a = (s.hostRaise .outOfBounds, none) := by
  rw [State.hostRead, s.memRead_of_ge h, State.hostAnswer]

theorem State.hostViewAt_rawView_of_lt (s u : State) {a : Nat} (h : a < Config.cap) :
    s.hostViewAt u.rawView a = (s, some (Memory.get u.mem a)) := by
  rw [State.hostViewAt, viewAt_rawView, u.memRead_of_lt h, State.hostAnswer]

theorem State.hostViewAt_rawView_of_ge (s u : State) {a : Nat} (h : Config.cap ≤ a) :
    s.hostViewAt u.rawView a = (s.hostRaise .outOfBounds, none) := by
  rw [State.hostViewAt, viewAt_rawView, u.memRead_of_ge h, State.hostAnswer]

/-! ### The session (R150) -/

namespace Session

variable {h : Session}

theorem load_idle (c : Config) (e : h.engineRuns = false) (rs : List Record) :
    h.load c rs = h.lift (h.machine.load c rs) := by simp [Session.load, e]

theorem load_engineRuns (c : Config) (e : h.engineRuns = true) (rs : List Record) :
    h.load c rs = .refused .hostDuringRun := by simp [Session.load, e]

/-- `access_idle` for the view, rewritten once here: unification with the other accesses would evaluate its `CAP` bytes. -/
theorem rawView_idle (e : h.engineRuns = false) : h.rawView = .next (h, h.machine.rawView) := by
  rw [Session.rawView, access_idle _ e]

theorem proceed_unstarted (c : Config) (n : Nat) (hs : h.started = false) : h.proceed c n = .next h := by
  simp [Session.proceed, hs]

theorem proceed_started {n : Nat} (hs : h.started = true) (ht : runFor c n h.machine = .next t) :
    h.proceed c n = .next { h with machine := t } := by simp [Session.proceed, hs, ht, Session.lift]

theorem run_engineRuns (c : Config) (n : Nat) (e : h.engineRuns = true) : h.run c n = .refused .hostDuringRun := by
  simp [Session.run, e]

/-- The one call that starts the loop. -/
theorem run_unstarted (c : Config) (n : Nat) (hs : h.started = false) (hr : h.machine.run = .running) :
    h.run c n = Session.proceed c n { h with started := true } := by
  simp [Session.run, (engineRuns_false h).2 (.inl hs), hr]

theorem run_ended (c : Config) (n : Nat) (hr : h.machine.run ≠ .running) : h.run c n = .next h := by
  have e := (engineRuns_false h).2 (.inr hr)
  cases hm : h.machine.run with
  | running => exact absurd hm hr
  | halted => simp [Session.run, e, hm]
  | faulted k => simp [Session.run, e, hm]

end Session

/-! ### The invariant -/

/-- The host's flag setter does what an opcode of the flag family does (R158). -/
theorem exists_exec_eq_hostSetFlag (s : State) (f : Flag) (b : Bool) : ∃ i, exec i s = .next (s.hostSetFlag f b) :=
  match f, b with
  | .equal, true => ⟨.ste, exec_ste s⟩
  | .equal, false => ⟨.cle, exec_cle s⟩
  | .greater, true => ⟨.stg, exec_stg s⟩
  | .greater, false => ⟨.clg, exec_clg s⟩
  | .higher, true => ⟨.sth, exec_sth s⟩
  | .higher, false => ⟨.clh, exec_clh s⟩
  | .lower, true => ⟨.stl, exec_stl s⟩
  | .lower, false => ⟨.cll, exec_cll s⟩

theorem State.hostSetFlag_frame (s : State) (f : Flag) (b : Bool) :
    s.hostSetFlag f b = { s with flags := (s.hostSetFlag f b).flags } := by cases b <;> rfl

namespace State.Inv

/-- A running machine has emitted no report that its memory could disagree with. -/
theorem with_mem_cursor {m : Memory} {n : Nat} (hi : s.Inv) (hrun : s.run = .running) (hm : Memory.wf m = true)
    (hn : n ≤ Config.cap) : State.Inv { s with mem := m, cursor := n } where
  memory := hm
  reserved := hi.reserved
  cursor := hn
  reports := by simpa [State.reportsAgree, hrun] using hi.sink_of_running hrun

/-- No report shows the flags, so a machine that has ended may have others too. -/
theorem with_flags {w : Word} (hi : s.Inv) (hw : w &&& reservedMask = 0#16) :
    State.Inv { s with flags := w } :=
  ⟨hi.memory, hw, hi.cursor, hi.reports⟩

theorem loadRecords {rs : List Record} (hi : s.Inv) (hrun : s.run = .running)
    (h : State.loadRecords c rs s = .next t) : t.Inv := by
  induction rs generalizing s with
  | nil => cases h; exact hi
  | cons r rs ih =>
    obtain hr | ⟨m, n, hn, hwf, hr⟩ | ⟨m, hwf, hr⟩ := State.loadRecords_cons_cases c s r
    · rw [hr] at h
      cases h
    · rw [hr] at h
      exact ih (hi.with_mem_cursor hrun (hwf hi.memory) hn) hrun h
    · rw [hr] at h
      cases h
      exact (hi.with_mem_cursor hrun (hwf hi.memory) hi.cursor).raise hrun _

theorem hostRaise (hi : s.Inv) (k : FaultKind) : (s.hostRaise k).Inv := by
  obtain ⟨hrun, h⟩ | ⟨-, h⟩ := s.hostRaise_cases k
  · rw [h]
    exact hi.raise hrun k
  · rwa [h]

theorem hostAnswer (hi : s.Inv) (x : Except FaultKind Byte) : (s.hostAnswer x).1.Inv := by
  obtain h | ⟨k, h⟩ := s.hostAnswer_fst x
  · rwa [h]
  · rw [h]
    exact hi.hostRaise k

theorem hostWrite (hi : s.Inv) (hrun : s.run = .running) (a : Nat) (v : Byte) : (s.hostWrite a v).Inv := by
  rcases Nat.lt_or_ge a Config.cap with ha | ha
  · rw [s.hostWrite_of_lt v ha]
    exact hi.with_mem_cursor hrun (Memory.wf_set v hi.memory ha) hi.cursor
  · rw [s.hostWrite_of_ge v ha]
    exact hi.hostRaise _

theorem hostSetFlag (hi : s.Inv) (f : Flag) (b : Bool) : (s.hostSetFlag f b).Inv := by
  obtain ⟨i, hx⟩ := exists_exec_eq_hostSetFlag s f b
  have hflags : (s.hostSetFlag f b).flags = flagsAfter i s.flags := (exec_next hx).flags_eq
  rw [State.hostSetFlag_frame, hflags]
  exact hi.with_flags (flagsAfter_reserved i hi.reserved)

theorem runFor {n : Nat} (hi : s.Inv) (h : runFor c n s = .next t) : t.Inv := by
  induction n generalizing s with
  | zero => cases h; exact hi
  | succ n ih =>
    by_cases hrun : s.run = .running
    · obtain ⟨u, hu⟩ := stepWith_running c hrun
      rw [runFor_succ_running n hrun hu] at h
      exact ih (hi.of_stepWith hu) h
    · rw [runFor_ended c _ hrun] at h
      cases h
      exact hi

end State.Inv

/-! ### The obligations -/

/-- Settles O42: by induction on the records, each serialised behind the ones before it. -/
theorem loadSerialisesAtTheCursor : Obligations.LoadSerialisesAtTheCursor := by
  refine ⟨fun c s rs bss hrun he hfit => ?_, fun _ _ _ _ _ => rfl⟩
  obtain ⟨m, hm, hin, hout⟩ := State.loadRecords_of_fits he hfit
  exact ⟨_, (State.load_running hrun rs).trans hm, rfl, hin, hout, rfl⟩

/-- Settles O43: the record's bytes are stored up to the guard's fault. -/
theorem loadBeyondMemoryFaults : Obligations.LoadBeyondMemoryFaults := by
  intro c s r rs bs hrun he hbeyond
  obtain ⟨m, hm, hin, hout, -⟩ := State.loadRecords_beyond rs he hbeyond
  refine ⟨_, (State.load_running hrun _).trans hm, rfl, rfl, hin, hout, funext fun q => ?_, rfl, rfl, rfl⟩
  rw [State.raise_reg, State.reg_with_mem]

/-- Settles O44: the loop over the records of both loads passes through the state between them. -/
theorem secondLoadContinuesTheFirst : Obligations.SecondLoadContinuesTheFirst := by
  intro c s t rs rs' h hrun
  have hs : s.run = .running := State.run_of_load h
  rw [State.load_running hs] at h
  rw [State.load_running hrun, State.load_running hs, State.loadRecords_append rs' h hrun]

/-- Settles O45: by induction on the records. -/
theorem loadKeepsTheInvariant : Obligations.LoadKeepsTheInvariant := by
  intro c s t rs hi h
  have hs : s.run = .running := State.run_of_load h
  rw [State.load_running hs] at h
  exact hi.loadRecords hs h

/-- Settles O48: one lemma per operation. -/
theorem hostOperationsKeepTheInvariant : Obligations.HostOperationsKeepTheInvariant :=
  fun _ _ a _ v _ f b hi =>
    ⟨hi.hostAnswer _, hi.hostAnswer _, hi.hostSetFlag f b, fun hrun => hi.hostWrite hrun a v, fun _ h => hi.runFor h⟩

/-- Settles O46: below `CAP` the guard lets the access through, and from `CAP` on each of the three is `hostRaise`. -/
theorem hostPortIsGuarded : Obligations.HostPortIsGuarded := by
  intro s u a v
  refine ⟨s.length_rawView, viewAt_rawView s a, fun ha => ?_, fun ha => ?_⟩
  · rw [s.hostWrite_of_lt v ha]
    exact ⟨s.hostRead_of_lt ha, s.hostViewAt_rawView_of_lt u ha, Memory.get_set_self _ _ _,
      fun b hb => Memory.get_set_of_ne _ _ hb, rfl⟩
  · rw [s.hostRead_of_ge ha, s.hostViewAt_rawView_of_ge u ha, s.hostWrite_of_ge v ha, viewAt_rawView]
    have hmem := s.hostRaise_mem .outOfBounds
    refine ⟨s.memRead_of_ge ha, rfl, rfl, hmem, hmem, hmem, fun hrun => ?_, fun hended => ?_⟩
    · rw [s.hostRaise_running _ hrun]
      exact ⟨rfl, rfl, rfl⟩
    · rw [s.hostRaise_ended _ hended]
      exact ⟨rfl, rfl, rfl⟩

/-- Settles O47: whether the engine runs decides for the port, the getters and the setter; `load`, `run` and the rounds
have an equation per case. -/
theorem hostActsOnlyWhenAllowed : Obligations.HostActsOnlyWhenAllowed := by
  intro c h rs n a v view r f b
  refine ⟨fun hs hr => ?_, fun hidle => ?_, Session.proceed_unstarted c n, fun hs => ?_,
    fun hs hr => ⟨fun t ht => ?_, ?_⟩, fun hr => ⟨?_, Session.run_ended c n hr⟩⟩
  · have e : h.engineRuns = true := h.engineRuns_iff.2 ⟨hs, hr⟩
    have hrefused {α : Type} (g : State → State × α) : h.access g = .refused .hostDuringRun :=
      Session.access_running g e
    exact ⟨Session.load_engineRuns c e rs, Session.run_engineRuns c n e, hrefused _, hrefused _, hrefused _,
      hrefused _, hrefused _, hrefused _, hrefused _, hrefused _, hrefused _, hrefused _⟩
  · have e : h.engineRuns = false := h.engineRuns_false.2 hidle
    have hacts {α : Type} (g : State → State × α) :
        h.access g = .next ({ h with machine := (g h.machine).1 }, (g h.machine).2) :=
      Session.access_idle g e
    exact ⟨hacts _, hacts _, Session.rawView_idle e, hacts _, hacts _, hacts _, hacts _, hacts _, hacts _,
      hacts _⟩
  · obtain ⟨t, ht⟩ := runFor_next c n h.machine
    exact ⟨t, ht, Session.proceed_started hs ht⟩
  · rw [Session.load_idle c (h.engineRuns_false.2 (.inl hs)), ht, Session.lift]
  · obtain ⟨t, ht⟩ := runFor_next c n h.machine
    exact ⟨t, ht, (Session.run_unstarted c n hs hr).trans (Session.proceed_started rfl ht)⟩
  · rw [Session.load_idle c (h.engineRuns_false.2 (.inr hr)), State.load_ended c hr, Session.lift]

end Sys2Proof.Machine
end
